-- ==== Sys2Proof/Word.lean ====
section
/-! DEFINITION. The word and its range (spec 00_scope.md R6, R9). -/

namespace Sys2Proof

/-- A word's value: a signed integer (R6). The machine has no bit-level fields (R9), so a word is held as the
integer it stands for. That it lies in the `W`-bit range is part of the state invariant (log 4). -/
abbrev Word := Int

/-- `2^(W-1)`: one more than the largest word, and minus the smallest (R6). -/
def wordHalf (W : Nat) : Int := ((2 ^ (W - 1) : Nat) : Int)

/-- The word range `[-2^(W-1), 2^(W-1) - 1]` (R6). -/
abbrev inWordRange (W : Nat) (v : Int) : Prop := -wordHalf W ≤ v ∧ v ≤ wordHalf W - 1

end Sys2Proof
end

