-- ==== Sys2Proof/Config.lean ====
section
/-! DEFINITION. The configuration parameters of a run (spec 00_scope.md R3, R8; 10_state.md R32). -/

namespace Sys2Proof

/-- The two profiles of the one design (R3). -/
inductive Profile where
  | minimal
  | full
deriving DecidableEq, Repr

/-- DEST_IMMEDIATE_POLICY (R84, D10): a destination's mode digit 1 is rejected, or treated as 0. -/
inductive DestImmediatePolicy where
  | reject
  | asPosition
deriving DecidableEq, Repr

/-- OVERFLOW_POLICY (R93, D2). -/
inductive OverflowPolicy where
  | wrap
  | fault
deriving DecidableEq, Repr

/-- The configuration (R8): fixed before launch, a parameter of the step, not readable or writable by a program. -/
structure Config where
  /-- `W`, the word width in bits (R6, D1). -/
  W : Nat
  /-- `MAX_WORDS`, the largest admitted memory length (R7, D3). -/
  maxWords : Nat
  /-- `PROFILE` (R3). -/
  profile : Profile
  /-- `DEST_IMMEDIATE_POLICY` (R84, D10). -/
  destImmediate : DestImmediatePolicy
  /-- `JUMP_TARGET_EAGER` (R100, D11). -/
  jumpTargetEager : Bool
  /-- `OVERFLOW_POLICY` (R93, D2). -/
  overflow : OverflowPolicy
deriving DecidableEq, Repr

/-- The ranges R6, R7 and R8 give the numeric parameters: `W >= 16` and `1 <= MAX_WORDS <= 2^(W-1)`. -/
abbrev Config.wf (c : Config) : Prop :=
  16 ≤ c.W ∧ 1 ≤ c.maxWords ∧ c.maxWords ≤ 2 ^ (c.W - 1)

/-- This spec's values (R8). `PROFILE` is "either" and `MAX_WORDS` is OPEN there: DESIGN CHOICE `full` and the
largest admitted `2^31` (log 2). -/
def Config.specValues : Config where
  W := 32
  maxWords := 2147483648
  profile := .full
  destImmediate := .reject
  jumpTargetEager := false
  overflow := .wrap

end Sys2Proof
end

