-- ==== Sys2Proof/Syntax.lean ====
section
/-! DEFINITION. Instructions as decoded (spec 10_state.md R31, 30_encoding.md R55 to R65) and the error kinds
(10_state.md R25, 60_exceptions.md R107 to R113). -/

namespace Sys2Proof

/-- A parameter mode (R60): digit 0 is Position, digit 1 is Immediate. -/
inductive Mode where
  | position
  | immediate
deriving DecidableEq, Repr

/-- An operand: its mode slot's mode and its raw operand word, not yet dereferenced (R57, R63, R85). -/
structure Operand where
  mode : Mode
  raw : Int
deriving DecidableEq, Repr

/-- The assembly operand `[n]`: Position mode, raw operand `n` (R74). -/
def pos (n : Int) : Operand := ⟨.position, n⟩

/-- The assembly operand `#n`: Immediate mode, raw operand `n` (R74). -/
def imm (n : Int) : Operand := ⟨.immediate, n⟩

/-- The opcodes, under the mnemonics of R64. -/
inductive Opcode where
  | add | mul | input | out | jt | jf | lt | eq | hlt
deriving DecidableEq, Repr

/-- The decoded instruction: one constructor per row of the opcode table (R64). Every header carries three mode
slots (R57): a used slot's mode stands in its operand, an unused slot's mode (`x2`, `x3`, ...) is carried and has
no effect (R66). -/
inductive Instr where
  /-- Full: opcode 1 (R95). -/
  | add (a b d : Operand)
  /-- Full: opcode 2 (R96). -/
  | mul (a b d : Operand)
  /-- Simple: opcode 3, the table's `in` (R97). -/
  | input (d : Operand) (x2 x3 : Mode)
  /-- Simple: opcode 4 (R98). -/
  | out (a : Operand) (x2 x3 : Mode)
  /-- Complex: opcode 5 (R101). -/
  | jt (c t : Operand) (x3 : Mode)
  /-- Complex: opcode 6 (R102). -/
  | jf (c t : Operand) (x3 : Mode)
  /-- Full: opcode 7 (R104). -/
  | lt (a b d : Operand)
  /-- Full: opcode 8 (R105). -/
  | eq (a b d : Operand)
  /-- Arity-0: opcode 99 (R106). -/
  | hlt (x1 x2 x3 : Mode)
deriving DecidableEq, Repr

/-- The error value `e` of `Failed(e)` (R25). -/
inductive Error where
  /-- R107: the opcode field, or `h rem 100` of a negative header. -/
  | unknownOpcode (v : Int)
  /-- R108: decoding would read past the end of memory. -/
  | unexpectedEndOfInput
  /-- R109: the offending mode digit. -/
  | unrecognisedParameterMode (d : Nat)
  /-- R110: the address, a raw operand word. -/
  | outOfBounds (a : Int)
  /-- R111: `in` without an input word. -/
  | missingInput
  /-- R112: the destination slot whose mode digit is 1, under `reject`. -/
  | immediateDestination (j : Nat)
  /-- R113: under OVERFLOW_POLICY = fault. -/
  | arithmeticOverflow
deriving DecidableEq, Repr

/-- The instruction's opcode. -/
def Instr.opcode : Instr → Opcode
  | .add _ _ _ => .add
  | .mul _ _ _ => .mul
  | .input _ _ _ => .input
  | .out _ _ _ => .out
  | .jt _ _ _ => .jt
  | .jf _ _ _ => .jf
  | .lt _ _ _ => .lt
  | .eq _ _ _ => .eq
  | .hlt _ _ _ => .hlt

/-- The modes of slots 1, 2 and 3 (R57). -/
def Instr.modes : Instr → Mode × Mode × Mode
  | .add a b d => (a.mode, b.mode, d.mode)
  | .mul a b d => (a.mode, b.mode, d.mode)
  | .input d x2 x3 => (d.mode, x2, x3)
  | .out a x2 x3 => (a.mode, x2, x3)
  | .jt c t x3 => (c.mode, t.mode, x3)
  | .jf c t x3 => (c.mode, t.mode, x3)
  | .lt a b d => (a.mode, b.mode, d.mode)
  | .eq a b d => (a.mode, b.mode, d.mode)
  | .hlt x1 x2 x3 => (x1, x2, x3)

/-- The raw operand words `p1 .. pk` in order (R55). -/
def Instr.rawOperands : Instr → List Word
  | .add a b d => [a.raw, b.raw, d.raw]
  | .mul a b d => [a.raw, b.raw, d.raw]
  | .input d _ _ => [d.raw]
  | .out a _ _ => [a.raw]
  | .jt c t _ => [c.raw, t.raw]
  | .jf c t _ => [c.raw, t.raw]
  | .lt a b d => [a.raw, b.raw, d.raw]
  | .eq a b d => [a.raw, b.raw, d.raw]
  | .hlt _ _ _ => []

/-- The destination slot's number and operand, for the instructions that have one (R61, `DestSlot` of R76). -/
def Instr.destination : Instr → Option (Nat × Operand)
  | .add _ _ d => some (3, d)
  | .mul _ _ d => some (3, d)
  | .input d _ _ => some (1, d)
  | .out _ _ _ => none
  | .jt _ _ _ => none
  | .jf _ _ _ => none
  | .lt _ _ d => some (3, d)
  | .eq _ _ d => some (3, d)
  | .hlt _ _ _ => none

end Sys2Proof
end

