-- ==== Sys2Proof/Machine/State.lean ====
section
/-! DEFINITION. The machine's state (spec 10_state.md R15 to R33), its value after reset, and the reasons a step or
a launch can stop. -/

namespace Sys2Proof.Machine

/-- Memory contents: `(address, word)` pairs in canonical form (`Memory.wf`), addresses counted in words (R35). The
length `N` is a component of its own (R15). -/
abbrev Memory := List (Nat × Word)

/-- What an address below `N` that the list leaves out holds: 0. This is representation, not hardware: the launch
gives every word a value (R18), and a listed entry never holds 0 (log 5). -/
def Memory.unlisted : Int := 0

/-- The canonical form: addresses strictly rising and no entry equal to what an unlisted address reads as. -/
abbrev Memory.wf (m : Memory) : Prop :=
  m.Pairwise (fun x y => x.1 < y.1) ∧ ∀ x ∈ m, x.2 ≠ Memory.unlisted

/-- The run status (R24). -/
inductive Status where
  | running
  | halted
  | failed (e : Error)
deriving DecidableEq, Repr

/-- The six components of R15, and the configuration of the run, which R32 calls a parameter of the step: it rides
here because a step takes the state alone, and no step changes it (log 1). -/
structure State where
  /-- The model's own field: the run's configuration (R8, R32). -/
  config : Config
  /-- `mem` (R17). -/
  mem : Memory
  /-- `N`, the memory length (R15, R18). -/
  N : Nat
  /-- `ptr`, the Instruction Pointer, a mathematical integer (R20, R23). -/
  ptr : Int
  /-- `status` (R24). -/
  status : Status
  /-- `in_latch` (R26). -/
  inLatch : Option Word
  /-- `out_log` (R27). -/
  outLog : List Word
deriving DecidableEq, Repr

/-- Reasons a step stops with a fault: none. Every error of the spec is a state of the machine, status `Failed(e)`,
which the step takes as its next state (R117), and every failing case of the spec is such an error (log 7). No
constructor, so nothing raises it. -/
inductive Fault where
deriving DecidableEq, Repr

/-- Reasons for a refusal. -/
inductive Refusal where
  /-- Raised by no instruction of this model: the name an arm of `exec` without a meaning would carry. Safe. -/
  | notModelled (mnemonic : String)
  /-- Raised by `launch` when `N > MAX_WORDS` (R129). Safe: the spec refuses this launch. -/
  | imageTooLong
  /-- Raised by `launch` when an image word is outside the word range (R129). Safe: the spec refuses this launch. -/
  | imageWordOutOfRange
  /-- Raised by `launch` when the input word is outside the word range (R129). Safe: the spec refuses this launch. -/
  | inputWordOutOfRange
  /-- Raised by `launch` when `W` or `MAX_WORDS` is outside its range (R6, R7, R8). Safe: no such machine exists
  (log 12). -/
  | configurationOutOfRange
deriving DecidableEq, Repr

/-- The machine after reset. `ptr`, `status` and `out_log` are R33's; the image is empty, the input word absent
(DESIGN CHOICE, log 3) and the configuration this spec's values (log 2): the launch's arguments, which the spec
leaves to the host. `Machine.launch` is the reset with any arguments. -/
def State.reset : State where
  config := .specValues
  mem := []
  N := 0
  ptr := 0
  status := .running
  inLatch := none
  outLog := []

end Sys2Proof.Machine
end

