-- ==== Sys2Proof/Machine/Ops.lean ====
section
/-! DEFINITION. The named operations over memory, `ptr`, `out_log` and `status` (spec 00_scope.md R10, 20_memory.md
R37 to R41), and taking an error (60_exceptions.md R117). -/

namespace Sys2Proof.Machine

/-- The word at address `a`, `mem[a]` (R17). -/
def Memory.read : Memory → Nat → Int
  | [], _ => Memory.unlisted
  | (b, w) :: rest, a => if a = b then w else Memory.read rest a

/-- The contents without address `a`'s entry. -/
def Memory.erase (m : Memory) (a : Nat) : Memory := m.filter fun x => x.1 != a

/-- The contents with an entry added at its place in the order. -/
def Memory.insert : Memory → Nat → Int → Memory
  | [], a, v => [(a, v)]
  | (b, w) :: rest, a, v => if a < b then (a, v) :: (b, w) :: rest else (b, w) :: Memory.insert rest a v

/-- `mem[a] <- v`, canonical form kept (R38). -/
def Memory.write (m : Memory) (a : Nat) (v : Int) : Memory :=
  if v = Memory.unlisted then m.erase a else (m.erase a).insert a v

/-- The valid addresses `0 .. N-1` (R35). -/
abbrev State.inBounds (s : State) (a : Int) : Prop := 0 ≤ a ∧ a < s.N

/-- `MemRead(a, 1)` (R37). -/
def memRead (s : State) (a : Int) : Except Error Word :=
  if s.inBounds a then .ok (s.mem.read a.toNat) else .error (.outOfBounds a)

/-- `MemWrite(a, 1, v)` (R38). -/
def memWrite (s : State) (a v : Int) : Except Error State :=
  if s.inBounds a then .ok { s with mem := s.mem.write a.toNat v } else .error (.outOfBounds a)

/-- `FetchWord(a)` (R39). -/
def fetchWord (s : State) (a : Int) : Except Error Word :=
  if s.inBounds a then .ok (s.mem.read a.toNat) else .error .unexpectedEndOfInput

/-- `Emit(v)`: append to the output log (R27). -/
def State.emit (s : State) (v : Int) : State := { s with outLog := s.outLog ++ [v] }

/-- `ptr <- ptr'` for an instruction of `k` operand words: `ptr' = a + 1 + k` (R21, R85). -/
def State.advance (s : State) (k : Nat) : State := { s with ptr := s.ptr + 1 + k }

/-- `ptr <- t`, a taken jump (R21). -/
def State.jumpTo (s : State) (t : Int) : State := { s with ptr := t }

/-- `status <- Halted` (R106). -/
def State.halt (s : State) : State := { s with status := .halted }

/-- `status <- Failed(e)`, and nothing else changes (R117). -/
def State.fail (s : State) (e : Error) : State := { s with status := .failed e }

/-- Taking an error, the machine's only exception (R117): the step's next state is the failed state. There is no
handler and no return from it (R118). -/
def raiseError (e : Error) (s : State) : Host.Outcome State Fault Refusal := .next (s.fail e)

/-- A step is all or nothing (R89): the state the execute phase computed, or the error taken from the state before. -/
def commit (s : State) : Except Error State → Host.Outcome State Fault Refusal
  | .ok t => .next t
  | .error e => raiseError e s

/-- A step request when `status` is not `Running` performs nothing (R91, R24; log 6). -/
def stepEnded (s : State) : Host.Outcome State Fault Refusal := .next s

end Sys2Proof.Machine
end

