-- ==== Sys2Proof/Machine/Flags.lean ====
section
/-! DEFINITION. The ALU's functions and the jump tests. The machine has no flags (spec 10_state.md R28): a comparison's
result is a word, 1 or 0 (44_compare.md), and a jump tests a resolved word for zero (43_jumps.md). -/

namespace Sys2Proof.Machine

/-- `wrap_W(v)`: the word with the same value modulo `2^W` (R9). -/
def wrapW (W : Nat) (v : Int) : Int := (v + wordHalf W) % ((2 ^ W : Nat) : Int) - wordHalf W

/-- The exact result reduced to a word by the overflow policy (R92, R93, R94). -/
def narrow (c : Config) (v : Int) : Except Error Word :=
  match c.overflow with
  | .wrap => .ok (wrapW c.W v)
  | .fault => if inWordRange c.W v then .ok v else .error .arithmeticOverflow

/-- `alu_add(x, y)` (R93). -/
def aluAdd (c : Config) (x y : Int) : Except Error Word := narrow c (x + y)

/-- `alu_mul(x, y)` (R94). -/
def aluMul (c : Config) (x y : Int) : Except Error Word := narrow c (x * y)

/-- Less-than on signed word values; it never raises (R103, R104). -/
def aluLt (_ : Config) (x y : Int) : Except Error Word := .ok (if x < y then 1 else 0)

/-- Equality of word values; it never raises (R103, R105). -/
def aluEq (_ : Config) (x y : Int) : Except Error Word := .ok (if x = y then 1 else 0)

/-- The test of `jt`: any nonzero word (R101). -/
def testNonzero (x : Int) : Bool := x != 0

/-- The test of `jf`: only the word 0 (R102). -/
def testZero (x : Int) : Bool := x == 0

end Sys2Proof.Machine
end

