-- ==== Sys2Proof/Machine/Operands.lean ====
section
/-! DEFINITION. Operand forms (spec 40_execute_cycle.md R86, R87; 30_encoding.md R62, R63). -/

namespace Sys2Proof.Machine

/-- The mode resolver: the value of a source operand (R86). -/
def resolve (s : State) (o : Operand) : Except Error Word :=
  match o.mode with
  | .immediate => .ok o.raw
  | .position => memRead s o.raw

/-- The address a destination operand names: its raw word, whatever its mode digit (R62). -/
def destAddress (o : Operand) : Int := o.raw

/-- The operand resolves: Immediate, or Position with an address in `[0, N)` (R37, R86). -/
abbrev readable (s : State) (o : Operand) : Prop := o.mode = .immediate ∨ s.inBounds o.raw

/-- The value of a readable operand (R86). -/
def operandValue (s : State) (o : Operand) : Int :=
  match o.mode with
  | .immediate => o.raw
  | .position => s.mem.read o.raw.toNat

/-- The execute phase the four Full instructions share (R95, R96, R104, R105): resolve operand 1, then operand 2
(R87), compute, write the destination, advance past four words. -/
def fullExecute (f : Config → Int → Int → Except Error Word) (a b d : Operand) (s : State) :
    Except Error State := do
  let x ← resolve s a
  let y ← resolve s b
  let r ← f s.config x y
  let t ← memWrite s (destAddress d) r
  return t.advance 3

/-- The execute phase the two jumps share (R101, R102): `taken` is the test on the condition's value. The target is
resolved when the jump is taken, or always under `JUMP_TARGET_EAGER` (R100). -/
def jumpExecute (taken : Int → Bool) (c t : Operand) (s : State) : Except Error State := do
  let x ← resolve s c
  if taken x || s.config.jumpTargetEager then
    let y ← resolve s t
    return if taken x then s.jumpTo y else s.advance 2
  else
    return s.advance 2

end Sys2Proof.Machine
end

