-- ==== Sys2Proof/Machine/Arithmetic.lean ====
section
/-! DEFINITION. add and mul (spec 41_arithmetic.md). -/

namespace Sys2Proof.Machine

/-- `add` (R95). -/
def execAdd (a b d : Operand) (s : State) : Host.Outcome State Fault Refusal :=
  commit s (fullExecute aluAdd a b d s)

/-- `mul` (R96). -/
def execMul (a b d : Operand) (s : State) : Host.Outcome State Fault Refusal :=
  commit s (fullExecute aluMul a b d s)

end Sys2Proof.Machine
end

