-- ==== Sys2Proof/Machine/Compare.lean ====
section
/-! DEFINITION. lt and eq (spec 44_compare.md). -/

namespace Sys2Proof.Machine

/-- `lt` (R104). -/
def execLt (a b d : Operand) (s : State) : Host.Outcome State Fault Refusal :=
  commit s (fullExecute aluLt a b d s)

/-- `eq` (R105). -/
def execEq (a b d : Operand) (s : State) : Host.Outcome State Fault Refusal :=
  commit s (fullExecute aluEq a b d s)

end Sys2Proof.Machine
end

