-- ==== Sys2Proof/Machine/Halt.lean ====
section
/-! DEFINITION. hlt (spec 45_halt.md). -/

namespace Sys2Proof.Machine

/-- `hlt` (R106): the run ends without an error; `ptr` is left at `a + 1` (D15). -/
def execHlt (s : State) : Host.Outcome State Fault Refusal := .next (s.halt.advance 0)

end Sys2Proof.Machine
end

