-- ==== Sys2Proof/Machine/Io.lean ====
section
/-! DEFINITION. in and out (spec 42_io.md). -/

namespace Sys2Proof.Machine

/-- The value `in` writes: the input latch, not consumed (R26); `MissingInput` without one (R111). -/
def readLatch (s : State) : Except Error Word :=
  match s.inLatch with
  | some v => .ok v
  | none => .error .missingInput

/-- `in` (R97): the latch is checked before the address. -/
def execInput (d : Operand) (s : State) : Host.Outcome State Fault Refusal :=
  commit s do
    let v ← readLatch s
    let t ← memWrite s (destAddress d) v
    return t.advance 1

/-- `out` (R98). -/
def execOut (a : Operand) (s : State) : Host.Outcome State Fault Refusal :=
  commit s do
    let v ← resolve s a
    return (s.emit v).advance 1

end Sys2Proof.Machine
end

