-- ==== Sys2Proof/Machine/Jumps.lean ====
section
/-! DEFINITION. jt and jf (spec 43_jumps.md). -/

namespace Sys2Proof.Machine

/-- `jt` (R101). -/
def execJt (c t : Operand) (s : State) : Host.Outcome State Fault Refusal :=
  commit s (jumpExecute testNonzero c t s)

/-- `jf` (R102). -/
def execJf (c t : Operand) (s : State) : Host.Outcome State Fault Refusal :=
  commit s (jumpExecute testZero c t s)

end Sys2Proof.Machine
end

