-- ==== Sys2Proof/Machine/Dispatch.lean ====
section
/-! DEFINITION. Dispatch of a decoded instruction to its execute phase (spec 40_execute_cycle.md R88). -/

namespace Sys2Proof.Machine

/-- Exactly one of the nine operations (R88). Whether the instruction may run, by status, profile and destination
policy, is the step's and the decoder's to check (R76). -/
def exec (i : Instr) (s : State) : Host.Outcome State Fault Refusal :=
  match i with
  | .add a b d => Sys2Proof.Machine.execAdd a b d s
  | .mul a b d => Sys2Proof.Machine.execMul a b d s
  | .input d _ _ => Sys2Proof.Machine.execInput d s
  | .out a _ _ => Sys2Proof.Machine.execOut a s
  | .jt c t _ => Sys2Proof.Machine.execJt c t s
  | .jf c t _ => Sys2Proof.Machine.execJf c t s
  | .lt a b d => Sys2Proof.Machine.execLt a b d s
  | .eq a b d => Sys2Proof.Machine.execEq a b d s
  | .hlt _ _ _ => Sys2Proof.Machine.execHlt s

end Sys2Proof.Machine
end

