-- ==== Sys2Proof/WellFormed.lean ====
section
/-! DEFINITION. Which decoded instructions a configuration admits (spec 30_encoding.md R65, R68, R69, R71). -/

namespace Sys2Proof

/-- The opcodes of a profile: all nine in `full`, add, mul and hlt in `minimal` (R76, `Opcodes(PROFILE)`). -/
def Profile.allowsOpcode : Profile → Opcode → Bool
  | .full, _ => true
  | .minimal, .add => true
  | .minimal, .mul => true
  | .minimal, .hlt => true
  | .minimal, .input => false
  | .minimal, .out => false
  | .minimal, .jt => false
  | .minimal, .jf => false
  | .minimal, .lt => false
  | .minimal, .eq => false

/-- The modes of a profile: both in `full`, Position alone in `minimal` (R76, `LegalModes(PROFILE)`; R81, D9). -/
def Profile.allowsMode : Profile → Mode → Bool
  | .full, _ => true
  | .minimal, .position => true
  | .minimal, .immediate => false

/-- Every one of the three slots holds a mode of the profile, unused slots included (R80). -/
def Instr.modesAllowed (p : Profile) (i : Instr) : Bool :=
  p.allowsMode i.modes.1 && p.allowsMode i.modes.2.1 && p.allowsMode i.modes.2.2

/-- The destination check of R84: under `reject` a destination's mode is Position. -/
def Instr.destinationAllowed (c : Config) (i : Instr) : Bool :=
  match c.destImmediate, i.destination with
  | .reject, some (_, d) => d.mode == .position
  | .reject, none => true
  | .asPosition, _ => true

/-- Every raw operand is a word (R63). -/
def Instr.operandsInRange (c : Config) (i : Instr) : Bool :=
  i.rawOperands.all fun p => decide (inWordRange c.W p)

/-- An instruction that some header and operand words encode under the configuration. -/
def Instr.wf (c : Config) (i : Instr) : Bool :=
  c.profile.allowsOpcode i.opcode && i.modesAllowed c.profile && i.destinationAllowed c && i.operandsInRange c

end Sys2Proof
end

