-- ==== Sys2Proof/Decode.lean ====
section
/-! DEFINITION. The decoder, total on any list of words, its rejections named by the error they raise
(spec 30_encoding.md, 40_execute_cycle.md R76 to R85), and the encoder (30_encoding.md R66, R74). -/

namespace Sys2Proof

/-- `digit(h, i) = (h div 10^i) mod 10` (R9). -/
def digit (h i : Nat) : Nat := h / 10 ^ i % 10

/-- The opcode field's value (R64). -/
def Opcode.code : Opcode → Nat
  | .add => 1
  | .mul => 2
  | .input => 3
  | .out => 4
  | .jt => 5
  | .jf => 6
  | .lt => 7
  | .eq => 8
  | .hlt => 99

/-- `Arity(op)` (R61, R76): the number of operand words. -/
def Opcode.arity : Opcode → Nat
  | .add => 3
  | .mul => 3
  | .input => 1
  | .out => 1
  | .jt => 2
  | .jf => 2
  | .lt => 3
  | .eq => 3
  | .hlt => 0

/-- The opcode map (R64): which opcode a field value selects, if any. -/
def Opcode.ofField : Nat → Option Opcode
  | 1 => some .add
  | 2 => some .mul
  | 3 => some .input
  | 4 => some .out
  | 5 => some .jt
  | 6 => some .jf
  | 7 => some .lt
  | 8 => some .eq
  | 99 => some .hlt
  | _ => none

/-- The opcode lookup of R82: a field outside `Opcodes(PROFILE)` raises `UnknownOpcode(op)`. -/
def decodeOpcode (p : Profile) (f : Nat) : Except Error Opcode :=
  match Opcode.ofField f with
  | some op => if p.allowsOpcode op then .ok op else .error (.unknownOpcode f)
  | none => .error (.unknownOpcode f)

/-- A mode digit's meaning (R60). -/
def Mode.ofDigit : Nat → Option Mode
  | 0 => some .position
  | 1 => some .immediate
  | _ => none

/-- The digit check of R80 and R81: a digit outside `LegalModes(PROFILE)` raises `UnrecognisedParameterMode(d)`. -/
def decodeMode (p : Profile) (d : Nat) : Except Error Mode :=
  match Mode.ofDigit d with
  | some m => if p.allowsMode m then .ok m else .error (.unrecognisedParameterMode d)
  | none => .error (.unrecognisedParameterMode d)

/-- What a header says: its opcode and its three modes (R56). -/
structure Header where
  opcode : Opcode
  m1 : Mode
  m2 : Mode
  m3 : Mode
deriving DecidableEq, Repr

/-- The header's decode, checks in the order of R76: sign (R78), mode digits in slot order (R80), opcode (R82).
Digits of weight `10^5` and above are not extracted (R79). -/
def decodeHeader (c : Config) (h : Int) : Except Error Header :=
  if h < 0 then .error (.unknownOpcode (h.tmod 100))
  else do
    let m1 ← decodeMode c.profile (digit h.toNat 2)
    let m2 ← decodeMode c.profile (digit h.toNat 3)
    let m3 ← decodeMode c.profile (digit h.toNat 4)
    let op ← decodeOpcode c.profile (h.toNat % 100)
    return ⟨op, m1, m2, m3⟩

/-- The operand words after the header (R83, R85): the record they form, and the words after the instruction;
`UnexpectedEndOfInput` where fewer than `Arity(op)` words stand. -/
def takeOperands (hd : Header) (ws : List Word) : Except Error (Instr × List Word) :=
  match hd.opcode, ws with
  | .add, p1 :: p2 :: p3 :: rest => .ok (.add ⟨hd.m1, p1⟩ ⟨hd.m2, p2⟩ ⟨hd.m3, p3⟩, rest)
  | .mul, p1 :: p2 :: p3 :: rest => .ok (.mul ⟨hd.m1, p1⟩ ⟨hd.m2, p2⟩ ⟨hd.m3, p3⟩, rest)
  | .input, p1 :: rest => .ok (.input ⟨hd.m1, p1⟩ hd.m2 hd.m3, rest)
  | .out, p1 :: rest => .ok (.out ⟨hd.m1, p1⟩ hd.m2 hd.m3, rest)
  | .jt, p1 :: p2 :: rest => .ok (.jt ⟨hd.m1, p1⟩ ⟨hd.m2, p2⟩ hd.m3, rest)
  | .jf, p1 :: p2 :: rest => .ok (.jf ⟨hd.m1, p1⟩ ⟨hd.m2, p2⟩ hd.m3, rest)
  | .lt, p1 :: p2 :: p3 :: rest => .ok (.lt ⟨hd.m1, p1⟩ ⟨hd.m2, p2⟩ ⟨hd.m3, p3⟩, rest)
  | .eq, p1 :: p2 :: p3 :: rest => .ok (.eq ⟨hd.m1, p1⟩ ⟨hd.m2, p2⟩ ⟨hd.m3, p3⟩, rest)
  | .hlt, rest => .ok (.hlt hd.m1 hd.m2 hd.m3, rest)
  | _, _ => .error .unexpectedEndOfInput

/-- The destination-mode check of R84 (R71, R112): under `reject`, mode digit 1 in slot `j` raises
`ImmediateDestination(j)`. -/
def checkDestination (c : Config) (i : Instr) : Except Error Unit :=
  match c.destImmediate, i.destination with
  | .reject, some (j, d) => if d.mode = .immediate then .error (.immediateDestination j) else .ok ()
  | .reject, none => .ok ()
  | .asPosition, _ => .ok ()

/-- The decode phase of R76 on the words from the header on, as far as memory goes: the instruction and the words
after it, or the first error in the order of R115. -/
def decode (c : Config) : List Word → Except Error (Instr × List Word)
  | [] => .error .unexpectedEndOfInput
  | h :: ws => do
    let hd ← decodeHeader c h
    let r ← takeOperands hd ws
    checkDestination c r.1
    return r

/-- A mode's digit (R60). -/
def Mode.digitOf : Mode → Nat
  | .position => 0
  | .immediate => 1

/-- The canonical header `op + 100*m1 + 1000*m2 + 10000*m3` (R66). -/
def Instr.header (i : Instr) : Nat :=
  i.opcode.code + 100 * i.modes.1.digitOf + 1000 * i.modes.2.1.digitOf + 10000 * i.modes.2.2.digitOf

/-- The words of an instruction: its canonical header, then its raw operands in order (R66, R74). -/
def encode (i : Instr) : List Word := (i.header : Int) :: i.rawOperands

/-- The signed value of the low 32 bits of `w`. -/
def signed32 (w : Nat) : Int :=
  let u : Int := ((w % 4294967296 : Nat) : Int)
  if u < 2147483648 then u else u - 4294967296

/-- Four 32-bit words numbered as the opcode table numbers bits: the first word's bits are the lowest, and every
bit at or above `nbits` is 0. Memory has no byte image (R46), so words are cut from the number directly (log 10). -/
def tableWords (nbits w : Nat) : List Word :=
  let v := w % 2 ^ nbits
  [signed32 v, signed32 (v / 2 ^ 32), signed32 (v / 2 ^ 64), signed32 (v / 2 ^ 96)]

/-- The instruction of a decode, if it succeeded. -/
def decodedInstr : Except Error (Instr × List Word) → Option Instr
  | .ok (i, _) => some i
  | .error _ => none

/-- What the decoder reads, under this spec's parameter values, from an instruction whose bits are `w`. -/
def decodeTableWord (nbits w : Nat) : Option Instr := decodedInstr (decode .specValues (tableWords nbits w))

end Sys2Proof
end

