-- ==== Sys2Proof/Machine/Fetch.lean ====
section
/-! DEFINITION. Fetching an instruction's words (spec 40_execute_cycle.md R77, R83, R85) and placing them. -/

namespace Sys2Proof.Machine

/-- Up to `k` instruction words from address `a` on, stopping where `FetchWord` fails: no word outside `[0, N)` is
touched (R40). -/
def fetchWords (s : State) (a : Int) : Nat → List Word
  | 0 => []
  | k + 1 =>
    match fetchWord s a with
    | .ok w => w :: fetchWords s (a + 1) k
    | .error _ => []

/-- The words of memory from `ptr` on, as many as the longest instruction has (R55). The window is shorter exactly
where memory ends, so a missing header or operand word is a missing element (log 9). -/
def fetchWindow (s : State) : List Word := fetchWords s s.ptr 4

/-- The decode phase of a step (R76): the instruction at `ptr`, or the first error (R115). -/
def fetchDecode (s : State) : Except Error Instr :=
  match decode s.config (fetchWindow s) with
  | .ok (i, _) => .ok i
  | .error e => .error e

/-- `ws` written to consecutive addresses from `a` on. -/
def placeWords (m : Memory) (a : Nat) : List Word → Memory
  | [] => m
  | w :: ws => placeWords (m.write a w) (a + 1) ws

/-- The state with `ws` where the next step fetches: the words at `ptr`, a run in progress, and a memory that
reaches over them (log 11). A negative `ptr`, where nothing can stand, becomes 0. -/
def placeInstruction (s : State) (ws : List Word) : State :=
  { s with
    mem := placeWords s.mem s.ptr.toNat ws
    N := max s.N (s.ptr.toNat + ws.length)
    ptr := s.ptr.toNat
    status := .running }

end Sys2Proof.Machine
end

