-- ==== Sys2Proof/Machine/Step.lean ====
section
/-! DEFINITION. One step (spec 40_execute_cycle.md R76, R91). -/

namespace Sys2Proof.Machine

/-- One step: decode at `ptr`, then execute, or take the first error (R76, R117). When `status` is not `Running` a
request performs nothing (R91). -/
def step (s : State) : Host.Outcome State Fault Refusal :=
  match s.status with
  | .running =>
    match fetchDecode s with
    | .ok i => exec i s
    | .error e => raiseError e s
  | .halted => stepEnded s
  | .failed _ => stepEnded s

/-- The state with the instruction of bits `w` placed where `step` fetches next (log 11). -/
def State.withFetchWord (s : State) (nbits w : Nat) : State :=
  placeInstruction s (tableWords nbits w)

end Sys2Proof.Machine
end

