-- ==== Sys2Proof/Machine/Launch.lean ====
section
/-! DEFINITION. Launch, the machine's reset with its arguments (spec 70_reset_and_hazards.md R128, R129). -/

namespace Sys2Proof.Machine

/-- The contents that hold the words `ws` from address `a` on. -/
def Memory.ofWords : Nat → List Word → Memory
  | _, [] => []
  | a, w :: ws => if w = Memory.unlisted then Memory.ofWords (a + 1) ws else (a, w) :: Memory.ofWords (a + 1) ws

/-- The host overwrites one word of the image before a launch, as it does with the noun and the verb at addresses 1
and 2 (R128, step 1). -/
def overwriteWord (image : List Word) (a : Nat) (v : Int) : List Word := image.set a v

/-- The state a launch establishes (R128, step 3; R33). -/
def launchState (c : Config) (image : List Word) (input : Option Word) : State where
  config := c
  mem := Memory.ofWords 0 image
  N := image.length
  ptr := 0
  status := .running
  inLatch := input
  outLog := []

/-- The input word, if given, is a word (R129). -/
def inputInRange (c : Config) : Option Word → Bool
  | none => true
  | some v => decide (inWordRange c.W v)

/-- A launch: refused unless its preconditions hold (R129, D22; the configuration's own ranges R6 to R8, log 12). -/
def launch (c : Config) (image : List Word) (input : Option Word) : Host.Outcome State Fault Refusal :=
  if ¬ c.wf then .refused .configurationOutOfRange
  else if c.maxWords < image.length then .refused .imageTooLong
  else if ¬ (∀ w ∈ image, inWordRange c.W w) then .refused .imageWordOutOfRange
  else if inputInRange c input then .next (launchState c image input)
  else .refused .inputWordOutOfRange

end Sys2Proof.Machine
end

