-- ==== Sys2Proof/Machine/Run.lean ====
section
/-! DEFINITION. The host's run and step requests and a run's result (spec 40_execute_cycle.md R90, R91;
70_reset_and_hazards.md R131, R133). -/

namespace Sys2Proof.Machine

/-- The `step()` transaction: one step, and the resulting status returned; the host may then read the whole state
(R91, R131). -/
def stepRequest (s : State) : Host.Outcome (State × Status) Fault Refusal :=
  match step s with
  | .next t => .next (t, t.status)
  | .fault r => .fault r
  | .refused r => .refused r

/-- The run loop of R90, at most `k` steps of it: it ends where `status` is not `Running`. Reaching the bound is no
outcome of the machine (D16, log 15). -/
def runFor : Nat → State → Host.Outcome State Fault Refusal
  | 0, s => .next s
  | k + 1, s =>
    match s.status with
    | .running =>
      match step s with
      | .next t => runFor k t
      | .fault r => .fault r
      | .refused r => .refused r
    | .halted => .next s
    | .failed _ => .next s

/-- What the host receives at the end of a run (R133). -/
inductive RunResult where
  /-- `Halted`: the word at address 0 and the output log, both exposed (D18). -/
  | halted (word0 : Word) (outLog : List Word)
  /-- `Failed(e)`: the error only. -/
  | failed (e : Error)
deriving DecidableEq, Repr

/-- The result of a run in the state that ends it; none while it is running (R133). A halted run has a word at
address 0, since a header was fetched. -/
def State.result (s : State) : Option RunResult :=
  match s.status with
  | .running => none
  | .failed e => some (.failed e)
  | .halted =>
    match memRead s 0 with
    | .ok w => some (.halted w s.outLog)
    | .error _ => none

end Sys2Proof.Machine
end

