-- ==== Sys2Proof/Safety.lean ====
section
/-! DEFINITION. The state invariant and the vocabulary of runs that claims use. -/

namespace Sys2Proof.Machine

/-- The input latch holds a word or nothing (R26). -/
abbrev latchInRange (s : State) : Prop := ∀ v ∈ s.inLatch, inWordRange s.config.W v

/-- What every state of an admitted run satisfies (R6 to R8, R15, R17, R23, R26, R27, R133). -/
structure State.Inv (s : State) : Prop where
  /-- The parameters are in their ranges (R8). -/
  config : s.config.wf
  /-- `N <= MAX_WORDS` (R15). -/
  length : s.N ≤ s.config.maxWords
  /-- The contents are in canonical form. -/
  memWf : s.mem.wf
  /-- Every listed address is below `N` (R17). -/
  memBelow : ∀ x ∈ s.mem, x.1 < s.N
  /-- Every word of memory is in the word range (R17). -/
  memRange : ∀ x ∈ s.mem, inWordRange s.config.W x.2
  /-- The input word is in the word range (R26, R129). -/
  latch : latchInRange s
  /-- Every emitted word is in the word range (R27). -/
  log : ∀ v ∈ s.outLog, inWordRange s.config.W v
  /-- `ptr` lies in `[-2^(W-1), 2^(W-1)]` (R23). -/
  ptrRange : -wordHalf s.config.W ≤ s.ptr ∧ s.ptr ≤ wordHalf s.config.W
  /-- A halted run has a word at address 0 (R133). -/
  haltedNonempty : s.status = .halted → 1 ≤ s.N
  /-- In profile `minimal` the output log is always empty (R133). -/
  minimalSilent : s.config.profile = .minimal → s.outLog = []

/-- A step of the machine: it exists only from `Running` (R76). -/
def Steps (s t : State) : Prop := s.status = .running ∧ step s = .next t

/-- The states of a run from `s` (R90). -/
inductive Reachable (s : State) : State → Prop where
  | start : Reachable s s
  | step {t u : State} : Reachable s t → Steps t u → Reachable s u

/-- A run that has not failed. -/
def NotFailed (s : State) : Prop := ∀ e, s.status ≠ .failed e

end Sys2Proof.Machine
end

