-- ==== Sys2Proof/Certificates/Slice0/Obligations.lean ====
section
/-! DEFINITION. The statements about the machine, from the spec's numbered rules. -/

namespace Sys2Proof.Claims

open Sys2Proof.Machine

/-- The outcome of a step or an execute phase that takes error `e`: only the status changes (R117). -/
abbrev failsWith (s : State) (e : Error) : Host.Outcome State Fault Refusal :=
  .next { s with status := .failed e }

/-- The header word at `ptr` (R76). -/
abbrev headerAt (s : State) : Int := s.mem.read s.ptr.toNat

/-- A step that fetches a non-negative header: the first two checks of R115 pass. -/
abbrev Fetches (s : State) : Prop := s.status = .running ∧ 0 ≤ s.ptr ∧ s.ptr < s.N ∧ 0 ≤ headerAt s

/-- The opcode field `h mod 100` (R56). -/
abbrev fieldAt (s : State) : Nat := (headerAt s).toNat % 100

/-- The mode digit of slot `j`, of weight `10^(j+1)` (R56). -/
abbrev modeDigitAt (s : State) (j : Nat) : Nat := (headerAt s).toNat / 10 ^ (j + 1) % 10

/-- `LegalModes(PROFILE)` (R76). -/
abbrev LegalDigit (p : Profile) (d : Nat) : Prop := d = 0 ∨ (d = 1 ∧ p = .full)

/-- All three mode digits are legal. -/
abbrev LegalDigits (s : State) : Prop :=
  LegalDigit s.config.profile (modeDigitAt s 1) ∧ LegalDigit s.config.profile (modeDigitAt s 2) ∧
    LegalDigit s.config.profile (modeDigitAt s 3)

/-- `Opcodes(PROFILE)` (R76). -/
abbrev LegalField (p : Profile) (f : Nat) : Prop :=
  f = 1 ∨ f = 2 ∨ f = 99 ∨ (p = .full ∧ 3 ≤ f ∧ f ≤ 8)

/-- `Arity(op)` (R76). -/
abbrev arityOf (f : Nat) : Nat :=
  if f = 1 ∨ f = 2 ∨ f = 7 ∨ f = 8 then 3 else if f = 5 ∨ f = 6 then 2 else if f = 3 ∨ f = 4 then 1 else 0

/-- `DestSlot(op) = j` (R76). -/
abbrev DestSlotIs (f j : Nat) : Prop := ((f = 1 ∨ f = 2 ∨ f = 7 ∨ f = 8) ∧ j = 3) ∨ (f = 3 ∧ j = 1)

/-- The digit a mode is written with (R60). -/
abbrev digitFor (m : Mode) : Nat := if m = .immediate then 1 else 0

/-- The decode-phase exceptions of an instruction whose opcode field is `f`: the first illegal mode digit in slot
order; the operand words past the end of memory; the Immediate destination under `reject` (R76). -/
def DecodeExceptions (f : Nat) : Prop :=
  ∀ s : State, Fetches s → fieldAt s = f →
    (∀ j, 1 ≤ j → j ≤ 3 → ¬ LegalDigit s.config.profile (modeDigitAt s j) →
      (∀ k, 1 ≤ k → k < j → LegalDigit s.config.profile (modeDigitAt s k)) →
      step s = failsWith s (.unrecognisedParameterMode (modeDigitAt s j))) ∧
    (LegalDigits s → LegalField s.config.profile f → (s.N : Int) - 1 < s.ptr + arityOf f →
      step s = failsWith s .unexpectedEndOfInput) ∧
    (LegalDigits s → LegalField s.config.profile f → s.ptr + arityOf f ≤ (s.N : Int) - 1 →
      s.config.destImmediate = .reject → ∀ j, DestSlotIs f j → modeDigitAt s j = 1 →
      step s = failsWith s (.immediateDestination j))

/-- The execute phase shared by add and mul (R95, R96), `g` the exact operation: the exceptions in the order of R115,
then the completed instruction under each overflow policy. -/
def ArithmeticExecutes (i : Operand → Operand → Operand → Instr) (g : Int → Int → Int) : Prop :=
  ∀ (s : State) (a b d : Operand),
    (¬ readable s a → exec (i a b d) s = failsWith s (.outOfBounds a.raw)) ∧
    (readable s a → ¬ readable s b → exec (i a b d) s = failsWith s (.outOfBounds b.raw)) ∧
    (readable s a → readable s b → s.config.overflow = .fault →
      ¬ inWordRange s.config.W (g (operandValue s a) (operandValue s b)) →
      exec (i a b d) s = failsWith s .arithmeticOverflow) ∧
    (readable s a → readable s b →
      (s.config.overflow = .wrap ∨ inWordRange s.config.W (g (operandValue s a) (operandValue s b))) →
      ¬ s.inBounds d.raw → exec (i a b d) s = failsWith s (.outOfBounds d.raw)) ∧
    (readable s a → readable s b → s.config.overflow = .wrap → s.inBounds d.raw →
      exec (i a b d) s = .next { s with
        mem := s.mem.write d.raw.toNat (wrapW s.config.W (g (operandValue s a) (operandValue s b)))
        ptr := s.ptr + 4 }) ∧
    (readable s a → readable s b → s.config.overflow = .fault →
      inWordRange s.config.W (g (operandValue s a) (operandValue s b)) → s.inBounds d.raw →
      exec (i a b d) s = .next { s with
        mem := s.mem.write d.raw.toNat (g (operandValue s a) (operandValue s b))
        ptr := s.ptr + 4 })

/-- The execute phase shared by lt and eq (R104, R105), `r` the result word. -/
def ComparisonExecutes (i : Operand → Operand → Operand → Instr) (r : Int → Int → Int) : Prop :=
  ∀ (s : State) (a b d : Operand),
    (¬ readable s a → exec (i a b d) s = failsWith s (.outOfBounds a.raw)) ∧
    (readable s a → ¬ readable s b → exec (i a b d) s = failsWith s (.outOfBounds b.raw)) ∧
    (readable s a → readable s b → ¬ s.inBounds d.raw →
      exec (i a b d) s = failsWith s (.outOfBounds d.raw)) ∧
    (readable s a → readable s b → s.inBounds d.raw →
      exec (i a b d) s = .next { s with
        mem := s.mem.write d.raw.toNat (r (operandValue s a) (operandValue s b))
        ptr := s.ptr + 4 })

/-- The execute phase shared by jt and jf (R101, R102), `taken` the test on the condition's value. -/
def JumpExecutes (i : Operand → Operand → Mode → Instr) (taken : Int → Prop) : Prop :=
  ∀ (s : State) (c t : Operand) (x3 : Mode),
    (¬ readable s c → exec (i c t x3) s = failsWith s (.outOfBounds c.raw)) ∧
    (readable s c → (taken (operandValue s c) ∨ s.config.jumpTargetEager = true) → ¬ readable s t →
      exec (i c t x3) s = failsWith s (.outOfBounds t.raw)) ∧
    (readable s c → taken (operandValue s c) → readable s t →
      exec (i c t x3) s = .next { s with ptr := operandValue s t }) ∧
    (readable s c → ¬ taken (operandValue s c) → s.config.jumpTargetEager = false →
      exec (i c t x3) s = .next { s with ptr := s.ptr + 3 }) ∧
    (readable s c → ¬ taken (operandValue s c) → s.config.jumpTargetEager = true → readable s t →
      exec (i c t x3) s = .next { s with ptr := s.ptr + 3 })

/-- The encoding of a Full instruction with opcode field `f`: canonical header, then three raw operands. -/
def FullEncoding (i : Operand → Operand → Operand → Instr) (f : Nat) : Prop :=
  ∀ a b d : Operand, encode (i a b d) =
    [((f + 100 * digitFor a.mode + 1000 * digitFor b.mode + 10000 * digitFor d.mode : Nat) : Int), a.raw, b.raw, d.raw]

/-- The encoding of a jump with opcode field `f`; slot 3 is unused. -/
def JumpEncoding (i : Operand → Operand → Mode → Instr) (f : Nat) : Prop :=
  ∀ (c t : Operand) (x3 : Mode), encode (i c t x3) =
    [((f + 100 * digitFor c.mode + 1000 * digitFor t.mode + 10000 * digitFor x3 : Nat) : Int), c.raw, t.raw]

/-- What every instruction leaves unchanged beside memory, `out_log` and `status` (R18, R26, R32). -/
abbrev SameFixedParts (s t : State) : Prop := t.N = s.N ∧ t.inLatch = s.inLatch ∧ t.config = s.config

/-- The status is as before, or the failed status of an error. -/
abbrev SameStatusOrFailed (s t : State) : Prop := t.status = s.status ∨ ∃ e, t.status = .failed e

end Sys2Proof.Claims

open Sys2Proof Sys2Proof.Machine Sys2Proof.Claims

/-! ### Reset and launch -/

/-- Reset: `ptr` is 0, the run is `Running`, the output log is empty (10_state.md, reset values). The empty image,
the absent input word and the configuration are the model's choice of launch arguments (log 2, log 3). -/
def Obligations.ResetStartsRunningAtAddressZero : Prop :=
  State.reset.ptr = 0 ∧ State.reset.status = .running ∧ State.reset.outLog = [] ∧
    State.reset.mem = [] ∧ State.reset.N = 0 ∧ State.reset.inLatch = none ∧ State.reset.config = .specValues

/-- The reset state satisfies the invariant. -/
def Obligations.ResetSatisfiesInvariant : Prop := State.reset.Inv

/-- R33: the state after an admitted launch; and a word the host overwrote in the image is the word in memory. -/
def Obligations.LaunchEstablishesResetValues : Prop :=
  ∀ (c : Config) (image : List Word) (input : Option Word),
    c.wf → image.length ≤ c.maxWords → (∀ w ∈ image, inWordRange c.W w) → (∀ v ∈ input, inWordRange c.W v) →
    ∃ t, launch c image input = .next t ∧
      t.N = image.length ∧ (∀ a w, image[a]? = some w → t.mem.read a = w) ∧
      t.ptr = 0 ∧ t.status = .running ∧ t.inLatch = input ∧ t.outLog = [] ∧ t.config = c ∧
      ∀ a v, a < image.length → inWordRange c.W v →
        ∃ u, launch c (overwriteWord image a v) input = .next u ∧ u.N = t.N ∧ u.mem.read a = v ∧
          ∀ b, b ≠ a → u.mem.read b = t.mem.read b

/-- A launch is admitted exactly under its preconditions (70_reset_and_hazards.md, D22; that the configuration lies in
its own ranges is the model's clause, log 12). -/
def Obligations.LaunchAdmittedExactlyInRange : Prop :=
  ∀ (c : Config) (image : List Word) (input : Option Word),
    (∃ t, launch c image input = .next t) ↔
      c.wf ∧ image.length ≤ c.maxWords ∧ (∀ w ∈ image, inWordRange c.W w) ∧ (∀ v ∈ input, inWordRange c.W v)

/-- Every launched state satisfies the invariant. -/
def Obligations.LaunchEstablishesInvariant : Prop :=
  ∀ (c : Config) (image : List Word) (input : Option Word) (t : State),
    launch c image input = .next t → t.Inv

/-! ### Encoding -/

/-- Decoding the encoding of any well-formed instruction gives it back with the words that follow, every operand,
mode and unused slot digit at every value the configuration admits. -/
def Obligations.DecodeOfEncodeIsIdentity : Prop :=
  ∀ (c : Config) (i : Instr) (rest : List Word), i.wf c = true → decode c (encode i ++ rest) = .ok (i, rest)

/-- The other direction: a word sequence that decodes is the instruction's encoding, up to header digits of weight
`10^5` and above (the spec's decision D7), and where its operands are words the instruction is well formed. -/
def Obligations.DecodedWordsAreTheEncoding : Prop :=
  ∀ (c : Config) (ws rest : List Word) (i : Instr), decode c ws = .ok (i, rest) →
    ∃ (h : Int) (ops : List Word), ws = h :: ops ∧ 0 ≤ h ∧
      encode i ++ rest = (h % 100000) :: ops ∧
      ((∀ p ∈ i.rawOperands, inWordRange c.W p) → i.wf c = true)

/-- Header digits of weight `10^5` and above are ignored (the spec's decision D7): success, error and payload are
those of `h mod 100000`. -/
def Obligations.HighHeaderDigitsIgnored : Prop :=
  ∀ (c : Config) (h : Int) (ws : List Word), 0 ≤ h → decode c (h :: ws) = decode c ((h % 100000) :: ws)

/-- R58: the mode digits a header does not have are Position. -/
def Obligations.MissingModeDigitsArePosition : Prop :=
  ∀ (c : Config) (h : Int) (ws rest : List Word) (i : Instr), 0 ≤ h → decode c (h :: ws) = .ok (i, rest) →
    (h < 100 → i.modes.1 = .position) ∧ (h < 1000 → i.modes.2.1 = .position) ∧
      (h < 10000 → i.modes.2.2 = .position)

/-- R55: the header, the word at `ptr`, is followed by `k` raw operand words, operand `j` the word at `ptr + j`: `1 + k`
words in all, 4 for opcodes 1, 2, 7, 8, 2 for 3 and 4, 3 for 5 and 6, 1 for 99. R21 and R22: a step that completes
advances `ptr` past the whole instruction, after `hlt` too (the spec's decision D15), unless a jump takes its target. -/
def Obligations.InstructionLengthByOpcode : Prop :=
  (∀ (c : Config) (h : Int) (ws rest : List Word) (i : Instr), decode c (h :: ws) = .ok (i, rest) →
    i.rawOperands.length = arityOf (h.toNat % 100) ∧
      ws = i.rawOperands ++ rest ∧
      (h :: ws).length = 1 + arityOf (h.toNat % 100) + rest.length) ∧
  (∀ (s : State) (i : Instr), fetchDecode s = .ok i →
    0 ≤ s.ptr ∧ s.ptr + i.rawOperands.length < s.N ∧ arityOf (fieldAt s) = i.rawOperands.length ∧
      ∀ (j : Nat) (p : Int), i.rawOperands[j]? = some p → p = s.mem.read (s.ptr + (j + 1 : Nat)).toNat) ∧
  (∀ (s t : State) (i : Instr), s.status = .running → fetchDecode s = .ok i → step s = .next t → NotFailed t →
    t.ptr = s.ptr + 1 + i.rawOperands.length ∨
      ∃ q g x3, (i = .jt q g x3 ∧ operandValue s q ≠ 0 ∨ i = .jf q g x3 ∧ operandValue s q = 0) ∧
        t.ptr = operandValue s g)

/-- The opcode field selects the instruction, and mode slot `j` governs operand `j` (30_encoding.md; the literals are
taken as stated, D28). -/
def Obligations.OpcodeFieldSelectsInstruction : Prop :=
  ∀ (c : Config) (h : Int) (ws rest : List Word) (i : Instr), decode c (h :: ws) = .ok (i, rest) →
    (h.toNat % 100 = 1 ↔ ∃ a b d, i = .add a b d) ∧
    (h.toNat % 100 = 2 ↔ ∃ a b d, i = .mul a b d) ∧
    (h.toNat % 100 = 3 ↔ ∃ d x2 x3, i = .input d x2 x3) ∧
    (h.toNat % 100 = 4 ↔ ∃ a x2 x3, i = .out a x2 x3) ∧
    (h.toNat % 100 = 5 ↔ ∃ q t x3, i = .jt q t x3) ∧
    (h.toNat % 100 = 6 ↔ ∃ q t x3, i = .jf q t x3) ∧
    (h.toNat % 100 = 7 ↔ ∃ a b d, i = .lt a b d) ∧
    (h.toNat % 100 = 8 ↔ ∃ a b d, i = .eq a b d) ∧
    (h.toNat % 100 = 99 ↔ ∃ x1 x2 x3, i = .hlt x1 x2 x3) ∧
    digitFor i.modes.1 = h.toNat / 100 % 10 ∧ digitFor i.modes.2.1 = h.toNat / 1000 % 10 ∧
    digitFor i.modes.2.2 = h.toNat / 10000 % 10

/-- Words written out from the spec's encodings decode to the instructions they stand for (examples of
95_test_vectors.md), one for each family. -/
def Obligations.SampleWordsDecode : Prop :=
  decode .specValues [1101, 100, -1, 4] = .ok (.add (imm 100) (imm (-1)) (pos 4), []) ∧
  decode .specValues [1002, 4, 3, 4] = .ok (.mul (pos 4) (imm 3) (pos 4), []) ∧
  decode .specValues [3, 0] = .ok (.input (pos 0) .position .position, []) ∧
  decode .specValues [104, 42] = .ok (.out (imm 42) .position .position, []) ∧
  decode .specValues [1005, 12, 2] = .ok (.jt (pos 12) (imm 2) .position, []) ∧
  decode .specValues [1006, 17, 13] = .ok (.jf (pos 17) (imm 13) .position, []) ∧
  decode .specValues [1007, 16, 0, 17] = .ok (.lt (pos 16) (imm 0) (pos 17), []) ∧
  decode .specValues [8, 9, 10, 9] = .ok (.eq (pos 9) (pos 10) (pos 9), []) ∧
  decode .specValues [11199] = .ok (.hlt .immediate .immediate .immediate, [])

/-- What decodes in profile `minimal` is add, mul or hlt in Position mode, and profile `full` decodes it to the same
instruction (the minimal profile is "the same Executor with modes fixed to Position"; D9 for the digits). -/
def Obligations.MinimalDecodeIsPartOfFull : Prop :=
  ∀ (c : Config) (ws rest : List Word) (i : Instr), c.profile = .minimal → decode c ws = .ok (i, rest) →
    (i.opcode = .add ∨ i.opcode = .mul ∨ i.opcode = .hlt) ∧
      i.modes = (.position, .position, .position) ∧
      decode { c with profile := .full } ws = .ok (i, rest)

/-! ### Decode errors, in the order a step checks them -/

/-- A header fetch outside `[0, N)` fails with `UnexpectedEndOfInput` (the spec's decision D5). -/
def Obligations.FetchOutsideMemoryFails : Prop :=
  ∀ s : State, s.status = .running → ¬ (0 ≤ s.ptr ∧ s.ptr < s.N) → step s = failsWith s .unexpectedEndOfInput

/-- A negative header fails with `UnknownOpcode(h rem 100)`, a payload in `-99 .. 0` (the spec's decision D6). -/
def Obligations.NegativeHeaderFails : Prop :=
  ∀ s : State, s.status = .running → 0 ≤ s.ptr → s.ptr < s.N → headerAt s < 0 →
    ∃ v : Int, step s = failsWith s (.unknownOpcode v) ∧ -99 ≤ v ∧ v ≤ 0 ∧ ∃ q : Int, headerAt s = 100 * q + v ∧ q ≤ 0

/-- The first mode digit in slot order that the profile does not have fails the step, whatever the opcode and its
arity (the spec's decisions D8, D9, D27). -/
def Obligations.FirstIllegalModeDigitFails : Prop :=
  ∀ (s : State) (j : Nat), Fetches s → 1 ≤ j → j ≤ 3 → ¬ LegalDigit s.config.profile (modeDigitAt s j) →
    (∀ k, 1 ≤ k → k < j → LegalDigit s.config.profile (modeDigitAt s k)) →
    step s = failsWith s (.unrecognisedParameterMode (modeDigitAt s j))

/-- R82: an opcode field outside the profile's set fails with `UnknownOpcode`, carrying the field. -/
def Obligations.UnknownOpcodeFieldFails : Prop :=
  ∀ s : State, Fetches s → LegalDigits s → ¬ LegalField s.config.profile (fieldAt s) →
    step s = failsWith s (.unknownOpcode (fieldAt s))

/-- R83: an instruction that does not lie whole inside memory fails with `UnexpectedEndOfInput`; one that does has
every operand address valid. -/
def Obligations.TruncatedInstructionFails : Prop :=
  ∀ s : State, Fetches s → LegalDigits s → LegalField s.config.profile (fieldAt s) →
    ((s.N : Int) - 1 < s.ptr + arityOf (fieldAt s) → step s = failsWith s .unexpectedEndOfInput) ∧
    (s.ptr + arityOf (fieldAt s) ≤ (s.N : Int) - 1 →
      ∀ j : Nat, 1 ≤ j → j ≤ arityOf (fieldAt s) → fetchWord s (s.ptr + j) = .ok (s.mem.read (s.ptr + j).toNat))

/-- A destination's mode digit 1 fails under `reject`; under `as_position` the decoded instruction runs, and runs as
the one with that digit 0 does (the spec's decision D10). -/
def Obligations.DestinationDigitPolicy : Prop :=
  ∀ (s : State) (j : Nat), Fetches s → LegalDigits s → LegalField s.config.profile (fieldAt s) →
    s.ptr + arityOf (fieldAt s) ≤ (s.N : Int) - 1 → DestSlotIs (fieldAt s) j → modeDigitAt s j = 1 →
    (s.config.destImmediate = .reject → step s = failsWith s (.immediateDestination j)) ∧
    (s.config.destImmediate = .asPosition → ∃ (i : Instr) (d : Operand),
      fetchDecode s = .ok i ∧
      i.destination = some (j, d) ∧ d.mode = .immediate ∧ d.raw = s.mem.read (s.ptr + j).toNat ∧
      step s = exec i s ∧ exec i s = exec (match i with
        | .add a b e => .add a b ⟨.position, e.raw⟩
        | .mul a b e => .mul a b ⟨.position, e.raw⟩
        | .input e x2 x3 => .input ⟨.position, e.raw⟩ x2 x3
        | .out a x2 x3 => .out a x2 x3
        | .jt q t x3 => .jt q t x3
        | .jf q t x3 => .jf q t x3
        | .lt a b e => .lt a b ⟨.position, e.raw⟩
        | .eq a b e => .eq a b ⟨.position, e.raw⟩
        | .hlt x1 x2 x3 => .hlt x1 x2 x3) s)

/-! ### The step -/

/-- When the words at `ptr` decode to an instruction, the step is its execute phase; in particular when the encoding
of a well-formed instruction stands at `ptr`. The step adds nothing around the execute phase: moving `ptr` past the
instruction is part of it. -/
def Obligations.StepRunsDecodedInstruction : Prop :=
  (∀ (s : State) (i : Instr) (rest : List Word), s.status = .running →
    decode s.config (fetchWindow s) = .ok (i, rest) → step s = exec i s) ∧
  (∀ (s : State) (i : Instr), s.status = .running → i.wf s.config = true → 0 ≤ s.ptr →
    s.ptr + (encode i).length ≤ s.N →
    (∀ (j : Nat) (w : Word), (encode i)[j]? = some w → s.mem.read (s.ptr + j).toNat = w) → step s = exec i s)

/-- Every step and every execute phase answers a next state: an error is a state of the machine, never a crash. -/
def Obligations.EveryStepAnswersNextState : Prop :=
  (∀ s : State, ∃ t, step s = .next t) ∧ ∀ (i : Instr) (s : State), ∃ t, exec i s = .next t

/-- Every step keeps the invariant, from every state that satisfies it: the parameters' ranges, `N <= MAX_WORDS`,
memory canonical, inside `[0, N)` and in the word range, `ptr` in `[-2^(W-1), 2^(W-1)]`, the latch and the output log
in the word range, a halted machine has a word of memory, and in profile `minimal` the output log is empty. -/
def Obligations.StepKeepsInvariant : Prop :=
  ∀ s t : State, s.Inv → step s = .next t → t.Inv

/-- Every state of every run of an admitted launch satisfies the invariant, with the launch's memory length, input
word and configuration unchanged. -/
def Obligations.RunStatesSatisfyInvariant : Prop :=
  ∀ (c : Config) (image : List Word) (input : Option Word) (s t : State),
    launch c image input = .next s → Reachable s t →
    t.Inv ∧ t.N = image.length ∧ t.inLatch = input ∧ t.config = c

/-- A step that fails has no effect but the status: `mem`, `ptr`, `in_latch` and `out_log` keep their values (the
spec's decision D14). -/
def Obligations.FailingStepChangesOnlyStatus : Prop :=
  ∀ (s t : State) (e : Error), s.status = .running → step s = .next t → t.status = .failed e →
    t = { s with status := .failed e }

/-- The status transitions: a step from `Running` leaves it `Running`, or halts, exactly when the instruction at `ptr`
is `hlt`, or fails; no transition leaves `Halted` or `Failed`. -/
def Obligations.StatusTransitions : Prop :=
  ∀ s t : State, step s = .next t →
    (s.status = .running →
      (t.status = .halted ↔ ∃ x1 x2 x3, fetchDecode s = .ok (.hlt x1 x2 x3)) ∧
      (t.status = .running ∨ t.status = .halted ∨ ∃ e, t.status = .failed e)) ∧
    (s.status ≠ .running → t = s)

/-- A step request performs one step and returns the resulting status; when the run has ended it performs nothing and
returns the status unchanged (40_execute_cycle.md, derived there; D29). -/
def Obligations.StepRequestReturnsStatus : Prop :=
  (∀ s t : State, s.status = .running → step s = .next t → stepRequest s = .next (t, t.status)) ∧
  (∀ s : State, s.status ≠ .running → stepRequest s = .next (s, s.status))

/-- No step changes the memory length or the input latch; nor the configuration, which the model keeps in the state
(log 1). -/
def Obligations.LengthLatchAndConfigurationFixed : Prop :=
  ∀ s t : State, step s = .next t → SameFixedParts s t

/-- The output log only grows, by one word, and only when `out` completes: the value of its operand, appended. -/
def Obligations.OutputLogOnlyAppends : Prop :=
  ∀ s t : State, step s = .next t →
    (t.outLog = s.outLog ∧ ¬ ∃ a x2 x3, s.status = .running ∧ fetchDecode s = .ok (.out a x2 x3) ∧ readable s a) ∨
    (∃ a x2 x3, s.status = .running ∧ fetchDecode s = .ok (.out a x2 x3) ∧ readable s a ∧
      t.outLog = s.outLog ++ [operandValue s a])

/-- No instruction reads the output log: with another log, the step does the same and appends the same words. -/
def Obligations.OutputLogIsNeverRead : Prop :=
  ∀ (s t : State) (log : List Word), step s = .next t →
    ∃ new, t.outLog = s.outLog ++ new ∧
      step { s with outLog := log } = .next { t with outLog := log ++ new }

/-- In profile `minimal` no instruction reads the input latch or writes the output log. -/
def Obligations.MinimalProfileHasNoIo : Prop :=
  ∀ (s t : State) (v : Option Word), s.config.profile = .minimal → step s = .next t →
    t.outLog = s.outLog ∧ step { s with inLatch := v } = .next { t with inLatch := v }

/-- A step that does not fail in profile `minimal` is the same step in profile `full`. -/
def Obligations.MinimalStepIsFullStep : Prop :=
  ∀ s t : State, s.config.profile = .minimal → NotFailed t → step s = .next t →
    step { s with config := { s.config with profile := .full } } =
      .next { t with config := { t.config with profile := .full } }

/-- A step changes no word of memory but the one its instruction's destination names. -/
def Obligations.MemoryChangesOnlyAtDestination : Prop :=
  ∀ (s t : State) (adr : Nat), step s = .next t → t.mem.read adr ≠ s.mem.read adr →
    ∃ i j d, fetchDecode s = .ok i ∧ i.destination = some (j, d) ∧ destAddress d = adr

/-! ### Memory and the mode resolver -/

/-- The three access primitives outside `[0, N)`: data accesses raise `OutOfBounds` with the address, instruction
fetches `UnexpectedEndOfInput`; inside they read the word (D4 and D5 for negative addresses and the header). -/
def Obligations.AccessPrimitivesCheckBounds : Prop :=
  ∀ (s : State) (a v : Int),
    (0 ≤ a ∧ a < s.N → memRead s a = .ok (s.mem.read a.toNat) ∧ fetchWord s a = .ok (s.mem.read a.toNat) ∧
      ∃ t, memWrite s a v = .ok t) ∧
    (a < 0 ∨ s.N ≤ a → memRead s a = .error (.outOfBounds a) ∧ fetchWord s a = .error .unexpectedEndOfInput ∧
      memWrite s a v = .error (.outOfBounds a))

/-- After a write, data reads and instruction fetches of its address give the word written, every other address reads
as before, and no other component changes (20_memory.md). -/
def Obligations.WriteIsSeenByEveryLaterAccess : Prop :=
  ∀ (s t : State) (a v : Int), memWrite s a v = .ok t →
    memRead t a = .ok v ∧ fetchWord t a = .ok v ∧
      (∀ b : Int, b ≠ a → memRead t b = memRead s b ∧ fetchWord t b = fetchWord s b) ∧
      t = { s with mem := t.mem } ∧
      ∀ b w u, memWrite t b w = .ok u → b ≠ a → fetchWord u a = .ok v

/-- A Full instruction that writes the next header has its word fetched by the very next step, with no action by the
program. -/
def Obligations.StoreToNextHeaderIsFetched : Prop :=
  ∀ (s t : State) (a b d : Operand) (i : Instr),
    i = .add a b d ∨ i = .mul a b d ∨ i = .lt a b d ∨ i = .eq a b d → s.status = .running →
    exec i s = .next t → NotFailed t → destAddress d = s.ptr + 4 →
    ∃ w ws, t.ptr = destAddress d ∧ t.mem = s.mem.write d.raw.toNat w ∧ fetchWindow t = w :: ws

/-- Two canonical memories that read the same at every address are equal (log 5). -/
def Obligations.CanonicalMemoriesAreExtensional : Prop :=
  ∀ m n : Memory, m.wf → n.wf → (∀ a, m.read a = n.read a) → m = n

/-- R86: the mode resolver; and a destination operand is not resolved, its raw word is the address written. -/
def Obligations.ModeResolver : Prop :=
  ∀ (s : State) (p : Int),
    resolve s ⟨.immediate, p⟩ = .ok p ∧ resolve s ⟨.position, p⟩ = memRead s p ∧
      ∀ m : Mode, destAddress ⟨m, p⟩ = p

/-! ### The ALU -/

/-- `wrap_W` maps any integer to the one word with the same value modulo `2^W`. -/
def Obligations.WrapIsTheCongruentWord : Prop :=
  ∀ (W : Nat) (v : Int), 1 ≤ W →
    inWordRange W (wrapW W v) ∧ (2 ^ W : Int) ∣ wrapW W v - v ∧
      ∀ w : Int, inWordRange W w → (2 ^ W : Int) ∣ w - v → w = wrapW W v

/-- The ALU's sum and product under both policies (41_arithmetic.md; D2 for the policy): wrapped, or exact and an
error outside the word range. Both are commutative. -/
def Obligations.AluSumAndProduct : Prop :=
  ∀ (c : Config) (x y : Int),
    (c.overflow = .wrap → aluAdd c x y = .ok (wrapW c.W (x + y)) ∧ aluMul c x y = .ok (wrapW c.W (x * y))) ∧
    (c.overflow = .fault →
      (inWordRange c.W (x + y) → aluAdd c x y = .ok (x + y)) ∧
      (¬ inWordRange c.W (x + y) → aluAdd c x y = .error .arithmeticOverflow) ∧
      (inWordRange c.W (x * y) → aluMul c x y = .ok (x * y)) ∧
      (¬ inWordRange c.W (x * y) → aluMul c x y = .error .arithmeticOverflow)) ∧
    aluAdd c x y = aluAdd c y x ∧ aluMul c x y = aluMul c y x

/-- The overflow policy cannot be seen on results in range: a word-range sum or product is the exact one under both
policies. -/
def Obligations.InRangeResultsAreExact : Prop :=
  ∀ (c : Config) (v : Int), 1 ≤ c.W → inWordRange c.W v → narrow c v = .ok v

/-! ### The instructions -/

/-- R95, add: encoding, decode exceptions, and the execute phase with its exceptions in order. -/
def Obligations.AddFollowsItsRule : Prop :=
  FullEncoding .add 1 ∧ DecodeExceptions 1 ∧ ArithmeticExecutes .add (· + ·)

/-- R96, mul: encoding, decode exceptions, and the execute phase with its exceptions in order. -/
def Obligations.MulFollowsItsRule : Prop :=
  FullEncoding .mul 2 ∧ DecodeExceptions 2 ∧ ArithmeticExecutes .mul (· * ·)

/-- in: encoding, decode exceptions, and the execute phase: `MissingInput` first (the spec's decision D12), then the
destination's bounds, then the latch's word written and the latch kept. -/
def Obligations.InputFollowsItsRule : Prop :=
  (∀ (d : Operand) (x2 x3 : Mode), encode (.input d x2 x3) =
    [((3 + 100 * digitFor d.mode + 1000 * digitFor x2 + 10000 * digitFor x3 : Nat) : Int), d.raw]) ∧
  DecodeExceptions 3 ∧
  ∀ (s : State) (d : Operand) (x2 x3 : Mode),
    (s.inLatch = none → exec (.input d x2 x3) s = failsWith s .missingInput) ∧
    (∀ v, s.inLatch = some v → ¬ s.inBounds d.raw →
      exec (.input d x2 x3) s = failsWith s (.outOfBounds d.raw)) ∧
    (∀ v, s.inLatch = some v → s.inBounds d.raw →
      exec (.input d x2 x3) s = .next { s with mem := s.mem.write d.raw.toNat v, ptr := s.ptr + 2 })

/-- R98, out: encoding, decode exceptions, and the execute phase: the operand's value appended to the output log. -/
def Obligations.OutputFollowsItsRule : Prop :=
  (∀ (a : Operand) (x2 x3 : Mode), encode (.out a x2 x3) =
    [((4 + 100 * digitFor a.mode + 1000 * digitFor x2 + 10000 * digitFor x3 : Nat) : Int), a.raw]) ∧
  DecodeExceptions 4 ∧
  ∀ (s : State) (a : Operand) (x2 x3 : Mode),
    (¬ readable s a → exec (.out a x2 x3) s = failsWith s (.outOfBounds a.raw)) ∧
    (readable s a →
      exec (.out a x2 x3) s = .next { s with outLog := s.outLog ++ [operandValue s a], ptr := s.ptr + 2 })

/-- R101, jt: encoding, decode exceptions, and the execute phase: taken on any nonzero word. -/
def Obligations.JumpIfTrueFollowsItsRule : Prop :=
  JumpEncoding .jt 5 ∧ DecodeExceptions 5 ∧ JumpExecutes .jt (· ≠ 0)

/-- R102, jf: encoding, decode exceptions, and the execute phase: taken on the word 0 alone. -/
def Obligations.JumpIfFalseFollowsItsRule : Prop :=
  JumpEncoding .jf 6 ∧ DecodeExceptions 6 ∧ JumpExecutes .jf (· = 0)

/-- R104, lt: encoding, decode exceptions, and the execute phase: 1 if `x < y` as signed integers, else 0. -/
def Obligations.LessThanFollowsItsRule : Prop :=
  FullEncoding .lt 7 ∧ DecodeExceptions 7 ∧ ComparisonExecutes .lt fun x y => if x < y then 1 else 0

/-- R105, eq: encoding, decode exceptions, and the execute phase: 1 if `x = y`, else 0. -/
def Obligations.EqualsFollowsItsRule : Prop :=
  FullEncoding .eq 8 ∧ DecodeExceptions 8 ∧ ComparisonExecutes .eq fun x y => if x = y then 1 else 0

/-- hlt: encoding, decode exceptions, and the execute phase: the run is `Halted`, `ptr` one further (the spec's
decision D15), nothing else changed. -/
def Obligations.HaltFollowsItsRule : Prop :=
  (∀ x1 x2 x3 : Mode, encode (.hlt x1 x2 x3) =
    [((99 + 100 * digitFor x1 + 1000 * digitFor x2 + 10000 * digitFor x3 : Nat) : Int)]) ∧
  DecodeExceptions 99 ∧
  ∀ (s : State) (x1 x2 x3 : Mode), exec (.hlt x1 x2 x3) s = .next { s with status := .halted, ptr := s.ptr + 1 }

/-- The instruction that `withFetchWord` places is the one the table decoder reads from the same bits, and the next step
runs it; of the rest of the state only what the fetch needs is changed (the model's convention, log 10, log 11). -/
def Obligations.PlacedTableWordRunsNext : Prop :=
  ∀ (s : State) (nbits w : Nat) (i : Instr), s.config = .specValues → decodeTableWord nbits w = some i →
    step (s.withFetchWord nbits w) = exec i (s.withFetchWord nbits w) ∧
      (s.withFetchWord nbits w).inLatch = s.inLatch ∧ (s.withFetchWord nbits w).outLog = s.outLog ∧
      (s.withFetchWord nbits w).config = s.config ∧
      ∀ a : Nat, (a < s.ptr.toNat ∨ s.ptr.toNat + 4 ≤ a) → (s.withFetchWord nbits w).mem.read a = s.mem.read a

/-! ### Frames -/

/-- The frame of add, mul, lt, eq and in: every word of memory but the destination's reads as before, and so does all
else but `ptr` and, on an error, the status. -/
def Obligations.StoringInstructionsFrame : Prop :=
  ∀ (s t : State) (a b d : Operand) (x2 x3 : Mode) (i : Instr),
    i = .add a b d ∨ i = .mul a b d ∨ i = .lt a b d ∨ i = .eq a b d ∨ i = .input d x2 x3 →
    exec i s = .next t →
    (∀ adr : Nat, (adr : Int) ≠ destAddress d → t.mem.read adr = s.mem.read adr) ∧
      t.outLog = s.outLog ∧ SameFixedParts s t ∧ SameStatusOrFailed s t

/-- The frame of out, jt, jf and hlt: all of memory is unchanged; the output log is unchanged but for out, which
appends its operand's value when it does not fail; the status is unchanged but for hlt, which halts, and an error. -/
def Obligations.NonStoringInstructionsFrame : Prop :=
  (∀ (s t : State) (c g : Operand) (x3 : Mode) (i : Instr), i = .jt c g x3 ∨ i = .jf c g x3 → exec i s = .next t →
    t.mem = s.mem ∧ (∀ adr, t.mem.read adr = s.mem.read adr) ∧ t.outLog = s.outLog ∧ SameFixedParts s t ∧
      SameStatusOrFailed s t) ∧
  (∀ (s t : State) (a : Operand) (x2 x3 : Mode), exec (.out a x2 x3) s = .next t →
    t.mem = s.mem ∧ (∀ adr, t.mem.read adr = s.mem.read adr) ∧ SameFixedParts s t ∧ SameStatusOrFailed s t ∧
      (readable s a → t.outLog = s.outLog ++ [operandValue s a] ∧ t.status = s.status) ∧
      (¬ readable s a → t.outLog = s.outLog)) ∧
  (∀ (s t : State) (x1 x2 x3 : Mode), exec (.hlt x1 x2 x3) s = .next t →
    t.mem = s.mem ∧ (∀ adr, t.mem.read adr = s.mem.read adr) ∧ t.outLog = s.outLog ∧ SameFixedParts s t ∧
      t.status = .halted)

/-- A destination equal to a source's raw word or to the address of any of the instruction's own four words: the
sources' values are those before the write, and the instruction that runs is the one that was decoded. -/
def Obligations.SourcesAreReadBeforeTheWrite : Prop :=
  ∀ (s t : State) (a b d : Operand), s.status = .running → fetchDecode s = .ok (.add a b d) → step s = .next t →
    NotFailed t →
    (a.raw = d.raw ∨ b.raw = d.raw ∨ (s.ptr ≤ d.raw ∧ d.raw ≤ s.ptr + 3)) →
    ∃ r, aluAdd s.config (operandValue s a) (operandValue s b) = .ok r ∧ t.mem.read d.raw.toNat = r ∧
      t.ptr = s.ptr + 4

/-! ### Jumps and runs -/

/-- A taken jump to an address outside memory succeeds, and the next step fails at its fetch (D5). -/
def Obligations.JumpOutsideMemoryFailsAtNextFetch : Prop :=
  ∀ (s : State) (c g : Operand) (x3 : Mode) (i : Instr), s.status = .running → readable s c → readable s g →
    (i = .jt c g x3 ∧ operandValue s c ≠ 0 ∨ i = .jf c g x3 ∧ operandValue s c = 0) →
    ¬ s.inBounds (operandValue s g) →
    ∃ t, exec i s = .next t ∧ t.status = .running ∧ t.ptr = operandValue s g ∧
      step t = failsWith t .unexpectedEndOfInput

/-- A jump to its own header whose condition stays true is a hang: every step leaves the state as it is, `Running`,
for ever. -/
def Obligations.TakenJumpToItselfHangs : Prop :=
  ∀ (s : State) (c g : Operand) (x3 : Mode) (i : Instr), s.status = .running → fetchDecode s = .ok i →
    (i = .jt c g x3 ∧ operandValue s c ≠ 0 ∨ i = .jf c g x3 ∧ operandValue s c = 0) →
    readable s c → readable s g → operandValue s g = s.ptr →
    step s = .next s ∧ ∀ k, runFor k s = .next s

/-- The run loop stops where the status is not `Running`, and once it has stopped, allowing more steps changes
nothing: the bound is no outcome of the machine (D16). -/
def Obligations.RunLoopStopsAtFirstTerminalState : Prop :=
  ∀ (k m : Nat) (s t : State), runFor k s = .next t → t.status ≠ .running → runFor (k + m) s = .next t

/-- The run loop repeats the step while the status is `Running`: a bound of `k + 1` is one step and then a bound of
`k`; what it answers is reachable, and an answer that is still `Running` is exactly `k` steps on (log 15). -/
def Obligations.RunLoopFollowsSteps : Prop :=
  (∀ (k : Nat) (s t : State), s.status = .running → step s = .next t → runFor (k + 1) s = runFor k t) ∧
  (∀ (k : Nat) (s : State), ∃ t, runFor k s = .next t ∧ Reachable s t ∧
    (t.status = .running → ∃ path : Nat → State, path 0 = s ∧ path k = t ∧
      ∀ j, j < k → Steps (path j) (path (j + 1))))

/-- The result of a run: on `Halted` the word at address 0 and the whole output log, on `Failed` the error alone, none
while it is running (D18). -/
def Obligations.RunResultByStatus : Prop :=
  ∀ s : State, s.Inv →
    (s.status = .running → s.result = none) ∧
    (s.status = .halted → s.result = some (.halted (s.mem.read 0) s.outLog)) ∧
    (∀ e, s.status = .failed e → s.result = some (.failed e))

/-- The idioms of 30_encoding.md: unconditional jump, indirect jump, copy, set, negate, do nothing for three words. -/
def Obligations.IdiomsDoWhatTheyName : Prop :=
  ∀ (s : State) (x3 : Mode) (T v a b : Int), s.Inv →
    exec (.jt (imm 1) (imm T) x3) s = .next { s with ptr := T } ∧
    exec (.jf (imm 0) (imm T) x3) s = .next { s with ptr := T } ∧
    exec (.jt (imm 0) (imm 0) x3) s = .next { s with ptr := s.ptr + 3 } ∧
    (s.inBounds a → exec (.jt (imm 1) (pos a) x3) s = .next { s with ptr := s.mem.read a.toNat }) ∧
    (s.inBounds b → inWordRange s.config.W v →
      exec (.add (imm v) (imm 0) (pos b)) s = .next { s with mem := s.mem.write b.toNat v, ptr := s.ptr + 4 }) ∧
    (s.inBounds a → s.inBounds b →
      exec (.add (pos a) (imm 0) (pos b)) s =
        .next { s with mem := s.mem.write b.toNat (s.mem.read a.toNat), ptr := s.ptr + 4 }) ∧
    (s.inBounds a → s.inBounds b → s.mem.read a.toNat ≠ -wordHalf s.config.W →
      exec (.mul (pos a) (imm (-1)) (pos b)) s =
        .next { s with mem := s.mem.write b.toNat (-(s.mem.read a.toNat)), ptr := s.ptr + 4 })
end

