-- ==== Sys2Proof/Laws/Decode.lean ====
section
/-! SUPPORT. The small lemmas of the decoder and the encoder. -/

namespace Sys2Proof

@[simp] theorem Opcode.ofField_code (op : Opcode) : Opcode.ofField op.code = some op := by cases op <;> rfl

theorem Opcode.code_lt (op : Opcode) : op.code < 100 := by cases op <;> decide

/-- The opcode map is the table of R64 read backwards. -/
theorem Opcode.ofField_some {f : Nat} {op : Opcode} (h : Opcode.ofField f = some op) : f = op.code := by
  unfold Opcode.ofField at h
  split at h <;> first | (cases h; rfl) | cases h

@[simp] theorem Mode.ofDigit_digitOf (m : Mode) : Mode.ofDigit m.digitOf = some m := by cases m <;> rfl

theorem Mode.digitOf_lt (m : Mode) : m.digitOf < 2 := by cases m <;> decide

theorem Mode.ofDigit_some {d : Nat} {m : Mode} (h : Mode.ofDigit d = some m) : d = m.digitOf := by
  unfold Mode.ofDigit at h
  split at h <;> first | (cases h; rfl) | cases h

theorem decodeMode_ok {p : Profile} {d : Nat} {m : Mode} :
    decodeMode p d = .ok m ↔ d = m.digitOf ∧ p.allowsMode m = true := by
  constructor
  · intro h
    unfold decodeMode at h
    split at h
    · rename_i m' hm
      split at h
      · cases h
        exact ⟨Mode.ofDigit_some hm, ‹_›⟩
      · cases h
    · cases h
  · rintro ⟨rfl, hp⟩
    simp [decodeMode, hp]

theorem decodeOpcode_ok {p : Profile} {f : Nat} {op : Opcode} :
    decodeOpcode p f = .ok op ↔ f = op.code ∧ p.allowsOpcode op = true := by
  constructor
  · intro h
    unfold decodeOpcode at h
    split at h
    · rename_i op' ho
      split at h
      · cases h
        exact ⟨Opcode.ofField_some ho, ‹_›⟩
      · cases h
    · cases h
  · rintro ⟨rfl, hp⟩
    simp [decodeOpcode, hp]

theorem decodeMode_error {p : Profile} {d : Nat} {e : Error} (h : decodeMode p d = .error e) :
    e = .unrecognisedParameterMode d := by
  unfold decodeMode at h
  split at h
  · split at h <;> cases h
    rfl
  · cases h
    rfl

theorem decodeOpcode_error {p : Profile} {f : Nat} {e : Error} (h : decodeOpcode p f = .error e) :
    e = .unknownOpcode f := by
  unfold decodeOpcode at h
  split at h
  · split at h <;> cases h
    rfl
  · cases h
    rfl

/-- All a header that decodes can be: non-negative, its three digits and its opcode field those of the modes and the
opcode, each allowed by the profile. -/
theorem decodeHeader_ok {c : Config} {h : Int} {hd : Header} :
    decodeHeader c h = .ok hd ↔
      0 ≤ h ∧ (digit h.toNat 2 = hd.m1.digitOf ∧ c.profile.allowsMode hd.m1 = true) ∧
        (digit h.toNat 3 = hd.m2.digitOf ∧ c.profile.allowsMode hd.m2 = true) ∧
        (digit h.toNat 4 = hd.m3.digitOf ∧ c.profile.allowsMode hd.m3 = true) ∧
        (h.toNat % 100 = hd.opcode.code ∧ c.profile.allowsOpcode hd.opcode = true) := by
  constructor
  · intro H
    unfold decodeHeader at H
    split at H
    · cases H
    · rename_i hneg
      cases h1 : decodeMode c.profile (digit h.toNat 2) with
      | error e => simp [h1, bind, Except.bind] at H
      | ok m1 =>
      cases h2 : decodeMode c.profile (digit h.toNat 3) with
      | error e => simp [h1, h2, bind, Except.bind] at H
      | ok m2 =>
      cases h3 : decodeMode c.profile (digit h.toNat 4) with
      | error e => simp [h1, h2, h3, bind, Except.bind] at H
      | ok m3 =>
      cases h4 : decodeOpcode c.profile (h.toNat % 100) with
      | error e => simp [h1, h2, h3, h4, bind, Except.bind] at H
      | ok op =>
        simp only [h1, h2, h3, h4, bind, Except.bind, pure, Except.pure, Except.ok.injEq] at H
        subst H
        exact ⟨by omega, decodeMode_ok.1 h1, decodeMode_ok.1 h2, decodeMode_ok.1 h3, decodeOpcode_ok.1 h4⟩
  · rintro ⟨h0, h1, h2, h3, h4⟩
    have hneg : ¬ h < 0 := by omega
    simp only [decodeHeader, hneg, if_false, decodeMode_ok.2 h1, decodeMode_ok.2 h2, decodeMode_ok.2 h3,
      decodeOpcode_ok.2 h4, bind, Except.bind, pure, Except.pure]

/-- The instruction a header's record and the raw operands form, if there are enough of them. -/
theorem takeOperands_ok {hd : Header} {ws rest : List Word} {i : Instr} (h : takeOperands hd ws = .ok (i, rest)) :
    i.opcode = hd.opcode ∧ i.modes = (hd.m1, hd.m2, hd.m3) ∧ ws = i.rawOperands ++ rest := by
  unfold takeOperands at h
  split at h <;> cases h <;> simp_all [Instr.opcode, Instr.modes, Instr.rawOperands]

theorem takeOperands_of_instr (i : Instr) (rest : List Word) :
    takeOperands ⟨i.opcode, i.modes.1, i.modes.2.1, i.modes.2.2⟩ (i.rawOperands ++ rest) = .ok (i, rest) := by
  cases i <;> rfl

theorem takeOperands_error {hd : Header} {ws : List Word} {e : Error} (h : takeOperands hd ws = .error e) :
    e = .unexpectedEndOfInput ∧ ws.length < hd.opcode.arity := by
  obtain ⟨op, m1, m2, m3⟩ := hd
  cases op <;> rcases ws with _ | ⟨p1, _ | ⟨p2, _ | ⟨p3, ws⟩⟩⟩ <;> simp_all [takeOperands, Opcode.arity]

theorem takeOperands_short {hd : Header} {ws : List Word} (h : ws.length < hd.opcode.arity) :
    takeOperands hd ws = .error .unexpectedEndOfInput := by
  obtain ⟨op, m1, m2, m3⟩ := hd
  cases op <;> rcases ws with _ | ⟨p1, _ | ⟨p2, _ | ⟨p3, ws⟩⟩⟩ <;> simp_all [takeOperands, Opcode.arity] <;> omega

theorem checkDestination_ok {c : Config} {i : Instr} :
    checkDestination c i = .ok () ↔ i.destinationAllowed c = true := by
  unfold checkDestination Instr.destinationAllowed
  cases c.destImmediate <;> cases i.destination with
  | none => simp
  | some x => obtain ⟨j, ⟨m, r⟩⟩ := x; cases m <;> simp

/-- All a successful decode can be: a header that decodes, its operands and what follows, the destination allowed. -/
theorem decode_ok {c : Config} {ws rest : List Word} {i : Instr} (h : decode c ws = .ok (i, rest)) :
    ∃ (hw : Int) (ops : List Word), ws = hw :: ops ∧
      decodeHeader c hw = .ok ⟨i.opcode, i.modes.1, i.modes.2.1, i.modes.2.2⟩ ∧
      ops = i.rawOperands ++ rest ∧ i.destinationAllowed c = true := by
  cases ws with
  | nil => cases h
  | cons hw ops =>
    simp only [decode, bind, Except.bind] at h
    cases h1 : decodeHeader c hw with
    | error e => simp [h1] at h
    | ok hd =>
      cases h2 : takeOperands hd ops with
      | error e => simp [h1, h2] at h
      | ok r =>
        obtain ⟨j, rest'⟩ := r
        cases h3 : checkDestination c j with
        | error e => simp [h1, h2, h3] at h
        | ok u =>
          simp only [h1, h2, h3, pure, Except.pure, Except.ok.injEq, Prod.mk.injEq] at h
          obtain ⟨rfl, rfl⟩ := h
          obtain ⟨ho, hm, hw'⟩ := takeOperands_ok h2
          refine ⟨hw, ops, rfl, ?_, hw', checkDestination_ok.1 h3⟩
          rw [h1, ho, hm]

/-- The canonical header's fields are the instruction's (R66). -/
theorem Instr.header_fields (i : Instr) :
    i.header % 100 = i.opcode.code ∧ digit i.header 2 = i.modes.1.digitOf ∧
      digit i.header 3 = i.modes.2.1.digitOf ∧ digit i.header 4 = i.modes.2.2.digitOf := by
  have h0 := i.opcode.code_lt
  have h1 := i.modes.1.digitOf_lt
  have h2 := i.modes.2.1.digitOf_lt
  have h3 := i.modes.2.2.digitOf_lt
  unfold Instr.header digit
  refine ⟨?_, ?_, ?_, ?_⟩ <;> norm_num <;> omega

theorem decode_of_parts {c : Config} {hw : Int} {ops : List Word} {hd : Header} {r : Instr × List Word}
    (h1 : decodeHeader c hw = .ok hd) (h2 : takeOperands hd ops = .ok r) (h3 : checkDestination c r.1 = .ok ()) :
    decode c (hw :: ops) = .ok r := by
  simp [decode, bind, Except.bind, pure, Except.pure, h1, h2, h3]

theorem decodedInstr_some {r : Except Error (Instr × List Word)} {i : Instr} (h : decodedInstr r = some i) :
    ∃ rest, r = .ok (i, rest) := by
  cases r with
  | error e => cases h
  | ok r =>
    obtain ⟨j, rest⟩ := r
    cases h
    exact ⟨rest, rfl⟩

/-- What the table decoder answers, the decoder reads (the words stay folded: `tableWords` is not unfolded). -/
theorem decodeTableWord_some {nbits w : Nat} {i : Instr} (h : decodeTableWord nbits w = some i) :
    ∃ rest, decode .specValues (tableWords nbits w) = .ok (i, rest) := decodedInstr_some h

end Sys2Proof
end

