-- ==== Sys2Proof/Laws/Memory.lean ====
section
/-! SUPPORT. The laws of memory contents: read after write, the canonical form kept, and what a launch places. -/

namespace Sys2Proof.Machine

@[simp] theorem Memory.read_nil (a : Nat) : Memory.read [] a = 0 := rfl

theorem Memory.read_cons (x : Nat × Word) (m : Memory) (a : Nat) :
    Memory.read (x :: m) a = if a = x.1 then x.2 else Memory.read m a := rfl

theorem Memory.read_erase (m : Memory) (a b : Nat) :
    (m.erase a).read b = if b = a then 0 else m.read b := by
  induction m with
  | nil => simp [Memory.erase]
  | cons x m ih =>
    unfold Memory.erase at ih ⊢
    by_cases hx : x.1 = a
    · simp only [List.filter_cons, hx, bne_self_eq_false, Bool.false_eq_true, if_false, ih, Memory.read_cons]
      split_ifs <;> simp_all
    · have hb : (x.1 != a) = true := by simpa using hx
      simp only [List.filter_cons, hb, if_true, Memory.read_cons, ih]
      split_ifs <;> simp_all

theorem Memory.read_insert (m : Memory) (a b : Nat) (v : Int) (h : ∀ x ∈ m, x.1 ≠ a) :
    (m.insert a v).read b = if b = a then v else m.read b := by
  induction m with
  | nil => simp [Memory.insert, Memory.read_cons]
  | cons x m ih =>
    have hx : x.1 ≠ a := h x (by simp)
    have hm := ih fun y hy => h y (by simp [hy])
    simp only [Memory.insert]
    split
    · simp [Memory.read_cons]
    · simp only [Memory.read_cons, hm]
      split_ifs <;> simp_all

theorem Memory.mem_erase {m : Memory} {a : Nat} {x : Nat × Word} :
    x ∈ m.erase a ↔ x ∈ m ∧ x.1 ≠ a := by
  simp [Memory.erase]

theorem Memory.mem_insert {m : Memory} {a : Nat} {v : Int} {x : Nat × Word} :
    x ∈ m.insert a v ↔ x = (a, v) ∨ x ∈ m := by
  induction m with
  | nil => simp [Memory.insert]
  | cons y m ih =>
    simp only [Memory.insert]
    split
    · simp
    · simp only [List.mem_cons, ih]; tauto

/-- Every entry of a written memory is the entry written or an entry of another address. -/
theorem Memory.mem_write {m : Memory} {a : Nat} {v : Int} {x : Nat × Word} (h : x ∈ m.write a v) :
    x = (a, v) ∨ (x ∈ m ∧ x.1 ≠ a) := by
  unfold Memory.write at h
  split at h
  · exact .inr (Memory.mem_erase.1 h)
  · exact (Memory.mem_insert.1 h).imp id Memory.mem_erase.1

/-- The whole effect of a write on later reads: the word written at its address, every other word as before. -/
theorem Memory.read_write (m : Memory) (a b : Nat) (v : Int) :
    (m.write a v).read b = if b = a then v else m.read b := by
  unfold Memory.write
  split
  · rename_i hv
    rw [Memory.read_erase, hv]; rfl
  · rw [Memory.read_insert _ _ _ _ fun x hx => (Memory.mem_erase.1 hx).2, Memory.read_erase]
    split <;> simp_all

@[simp] theorem Memory.read_write_same (m : Memory) (a : Nat) (v : Int) : (m.write a v).read a = v := by
  simp [Memory.read_write]

theorem Memory.read_write_other (m : Memory) {a b : Nat} (v : Int) (h : b ≠ a) :
    (m.write a v).read b = m.read b := by
  simp [Memory.read_write, h]

theorem Memory.erase_wf {m : Memory} (a : Nat) (h : m.wf) : (m.erase a).wf :=
  ⟨h.1.filter _, fun x hx => h.2 x (Memory.mem_erase.1 hx).1⟩

theorem Memory.insert_rising {m : Memory} {a : Nat} {v : Int} (h : m.Pairwise fun x y => x.1 < y.1)
    (ha : ∀ x ∈ m, x.1 ≠ a) : (m.insert a v).Pairwise fun x y => x.1 < y.1 := by
  induction m with
  | nil => simp [Memory.insert]
  | cons x m ih =>
    obtain ⟨hx, hm⟩ := List.pairwise_cons.1 h
    simp only [Memory.insert]
    split
    · rename_i hlt
      refine List.pairwise_cons.2 ⟨fun y hy => ?_, h⟩
      rcases List.mem_cons.1 hy with rfl | hy
      · exact hlt
      · exact lt_trans hlt (hx y hy)
    · rename_i hge
      have hne : x.1 ≠ a := ha x (by simp)
      refine List.pairwise_cons.2 ⟨fun y hy => ?_, ih hm fun y hy => ha y (by simp [hy])⟩
      rcases Memory.mem_insert.1 hy with rfl | hy
      · change x.1 < a
        omega
      · exact hx y hy

/-- A write keeps the canonical form. -/
theorem Memory.write_wf {m : Memory} (a : Nat) (v : Int) (h : m.wf) : (m.write a v).wf := by
  have he := Memory.erase_wf a h
  unfold Memory.write
  split
  · exact he
  · rename_i hv
    refine ⟨Memory.insert_rising he.1 fun x hx => (Memory.mem_erase.1 hx).2, fun x hx => ?_⟩
    rcases Memory.mem_insert.1 hx with rfl | hx
    · exact hv
    · exact he.2 x hx

/-- What a launch places: word `k` of the image at address `a + k`. -/
theorem Memory.read_ofWords (ws : List Word) (a b : Nat) :
    (Memory.ofWords a ws).read b = if a ≤ b then ws.getD (b - a) 0 else 0 := by
  induction ws generalizing a with
  | nil => simp [Memory.ofWords]
  | cons w ws ih =>
    have key : (Memory.ofWords (a + 1) ws).read b =
        if a + 1 ≤ b then ws.getD (b - (a + 1)) 0 else 0 := ih (a + 1)
    rcases lt_trichotomy b a with hlt | rfl | hgt
    · have h1 : ¬ a + 1 ≤ b := by omega
      have h2 : ¬ a ≤ b := by omega
      have h3 : b ≠ a := by omega
      rw [if_neg h1] at key
      rw [if_neg h2]
      unfold Memory.ofWords
      split
      · exact key
      · rw [Memory.read_cons, if_neg h3, key]
    · have h1 : ¬ b + 1 ≤ b := by omega
      unfold Memory.ofWords
      split
      · rename_i hw
        simp [key, hw, Memory.unlisted]
      · simp [Memory.read_cons]
    · have h1 : a + 1 ≤ b := by omega
      have h3 : b ≠ a := by omega
      have h4 : b - a = (b - (a + 1)) + 1 := by omega
      rw [if_pos h1] at key
      rw [if_pos (by omega), h4, List.getD_cons_succ]
      unfold Memory.ofWords
      split
      · exact key
      · rw [Memory.read_cons, if_neg h3, key]

theorem Memory.mem_ofWords {ws : List Word} {a : Nat} {x : Nat × Word} (h : x ∈ Memory.ofWords a ws) :
    a ≤ x.1 ∧ x.1 < a + ws.length ∧ x.2 ∈ ws ∧ x.2 ≠ Memory.unlisted := by
  induction ws generalizing a with
  | nil => simp [Memory.ofWords] at h
  | cons w ws ih =>
    unfold Memory.ofWords at h
    split at h
    · obtain ⟨h1, h2, h3, h4⟩ := ih h
      exact ⟨by omega, by simp; omega, by simp [h3], h4⟩
    · rename_i hw
      rcases List.mem_cons.1 h with rfl | h
      · exact ⟨le_refl _, by simp, by simp, hw⟩
      · obtain ⟨h1, h2, h3, h4⟩ := ih h
        exact ⟨by omega, by simp; omega, by simp [h3], h4⟩

/-- What a launch places is in canonical form. -/
theorem Memory.ofWords_wf (ws : List Word) (a : Nat) : (Memory.ofWords a ws).wf := by
  refine ⟨?_, fun x hx => (Memory.mem_ofWords hx).2.2.2⟩
  induction ws generalizing a with
  | nil => exact List.Pairwise.nil
  | cons w ws ih =>
    unfold Memory.ofWords
    split
    · exact ih (a + 1)
    · exact List.pairwise_cons.2 ⟨fun y hy => (Memory.mem_ofWords hy).1, ih (a + 1)⟩

end Sys2Proof.Machine
end

