-- ==== Sys2Proof/Laws/State.lean ====
section
/-! SUPPORT. One lemma per field per named update of the state. -/

namespace Sys2Proof.Machine

variable (s : State)

@[simp] theorem State.emit_config (v : Int) : (s.emit v).config = s.config := rfl
@[simp] theorem State.emit_mem (v : Int) : (s.emit v).mem = s.mem := rfl
@[simp] theorem State.emit_N (v : Int) : (s.emit v).N = s.N := rfl
@[simp] theorem State.emit_ptr (v : Int) : (s.emit v).ptr = s.ptr := rfl
@[simp] theorem State.emit_status (v : Int) : (s.emit v).status = s.status := rfl
@[simp] theorem State.emit_inLatch (v : Int) : (s.emit v).inLatch = s.inLatch := rfl
@[simp] theorem State.emit_outLog (v : Int) : (s.emit v).outLog = s.outLog ++ [v] := rfl

@[simp] theorem State.advance_config (k : Nat) : (s.advance k).config = s.config := rfl
@[simp] theorem State.advance_mem (k : Nat) : (s.advance k).mem = s.mem := rfl
@[simp] theorem State.advance_N (k : Nat) : (s.advance k).N = s.N := rfl
@[simp] theorem State.advance_ptr (k : Nat) : (s.advance k).ptr = s.ptr + 1 + k := rfl
@[simp] theorem State.advance_status (k : Nat) : (s.advance k).status = s.status := rfl
@[simp] theorem State.advance_inLatch (k : Nat) : (s.advance k).inLatch = s.inLatch := rfl
@[simp] theorem State.advance_outLog (k : Nat) : (s.advance k).outLog = s.outLog := rfl

@[simp] theorem State.jumpTo_config (t : Int) : (s.jumpTo t).config = s.config := rfl
@[simp] theorem State.jumpTo_mem (t : Int) : (s.jumpTo t).mem = s.mem := rfl
@[simp] theorem State.jumpTo_N (t : Int) : (s.jumpTo t).N = s.N := rfl
@[simp] theorem State.jumpTo_ptr (t : Int) : (s.jumpTo t).ptr = t := rfl
@[simp] theorem State.jumpTo_status (t : Int) : (s.jumpTo t).status = s.status := rfl
@[simp] theorem State.jumpTo_inLatch (t : Int) : (s.jumpTo t).inLatch = s.inLatch := rfl
@[simp] theorem State.jumpTo_outLog (t : Int) : (s.jumpTo t).outLog = s.outLog := rfl

@[simp] theorem State.halt_config : s.halt.config = s.config := rfl
@[simp] theorem State.halt_mem : s.halt.mem = s.mem := rfl
@[simp] theorem State.halt_N : s.halt.N = s.N := rfl
@[simp] theorem State.halt_ptr : s.halt.ptr = s.ptr := rfl
@[simp] theorem State.halt_status : s.halt.status = .halted := rfl
@[simp] theorem State.halt_inLatch : s.halt.inLatch = s.inLatch := rfl
@[simp] theorem State.halt_outLog : s.halt.outLog = s.outLog := rfl

@[simp] theorem State.fail_config (e : Error) : (s.fail e).config = s.config := rfl
@[simp] theorem State.fail_mem (e : Error) : (s.fail e).mem = s.mem := rfl
@[simp] theorem State.fail_N (e : Error) : (s.fail e).N = s.N := rfl
@[simp] theorem State.fail_ptr (e : Error) : (s.fail e).ptr = s.ptr := rfl
@[simp] theorem State.fail_status (e : Error) : (s.fail e).status = .failed e := rfl
@[simp] theorem State.fail_inLatch (e : Error) : (s.fail e).inLatch = s.inLatch := rfl
@[simp] theorem State.fail_outLog (e : Error) : (s.fail e).outLog = s.outLog := rfl

/-- A failed state restored to the status it had is the state it came from: taking an error changes `status` alone
(R117). -/
theorem State.fail_restore (e : Error) : { s.fail e with status := s.status } = s := rfl

end Sys2Proof.Machine
end

