-- ==== Sys2Proof/Laws/Ops.lean ====
section
/-! SUPPORT. One lemma for each shared operation that says all it can do. -/

namespace Sys2Proof.Machine

theorem memRead_ok {s : State} {a : Int} (h : s.inBounds a) : memRead s a = .ok (s.mem.read a.toNat) := if_pos h

theorem memRead_error {s : State} {a : Int} (h : ¬ s.inBounds a) : memRead s a = .error (.outOfBounds a) :=
  if_neg h

theorem memWrite_ok {s : State} {a : Int} (v : Int) (h : s.inBounds a) :
    memWrite s a v = .ok { s with mem := s.mem.write a.toNat v } := if_pos h

theorem memWrite_error {s : State} {a : Int} (v : Int) (h : ¬ s.inBounds a) :
    memWrite s a v = .error (.outOfBounds a) := if_neg h

theorem fetchWord_ok {s : State} {a : Int} (h : s.inBounds a) : fetchWord s a = .ok (s.mem.read a.toNat) := if_pos h

theorem fetchWord_error {s : State} {a : Int} (h : ¬ s.inBounds a) : fetchWord s a = .error .unexpectedEndOfInput :=
  if_neg h

theorem resolve_ok {s : State} {o : Operand} (h : readable s o) : resolve s o = .ok (operandValue s o) := by
  unfold resolve operandValue
  cases hm : o.mode with
  | immediate => rfl
  | position => exact memRead_ok (h.resolve_left (by simp [hm]))

theorem resolve_error {s : State} {o : Operand} (h : ¬ readable s o) : resolve s o = .error (.outOfBounds o.raw) := by
  unfold resolve
  cases hm : o.mode with
  | immediate => exact absurd (.inl hm) h
  | position => exact memRead_error fun hb => h (.inr hb)

@[simp] theorem commit_ok (s t : State) : commit s (.ok t) = .next t := rfl

@[simp] theorem commit_error (s : State) (e : Error) : commit s (.error e) = .next (s.fail e) := rfl

theorem commit_isNext (s : State) (r : Except Error State) : ∃ t, commit s r = .next t := by
  cases r <;> simp

/-- A committed step is the state computed, or the error taken from the state before. -/
theorem commit_cases {s t : State} {r : Except Error State} (h : commit s r = .next t) :
    r = .ok t ∨ ∃ e, r = .error e ∧ t = s.fail e := by
  cases r with
  | ok u => simpa using h
  | error e => exact .inr ⟨e, rfl, by simpa using h.symm⟩

/-- All a Full instruction can do when it completes: both sources readable, the destination in bounds, one word
written, `ptr` four further. -/
theorem fullExecute_cases {f : Config → Int → Int → Except Error Word} {a b d : Operand} {s t : State}
    (h : fullExecute f a b d s = .ok t) :
    ∃ r, readable s a ∧ readable s b ∧ s.inBounds d.raw ∧
      f s.config (operandValue s a) (operandValue s b) = .ok r ∧
      t = { s with mem := s.mem.write d.raw.toNat r, ptr := s.ptr + 1 + 3 } := by
  unfold fullExecute at h
  by_cases ha : readable s a
  · by_cases hb : readable s b
    · rw [resolve_ok ha, resolve_ok hb] at h
      cases hf : f s.config (operandValue s a) (operandValue s b) with
      | error e => simp [bind, Except.bind, hf] at h
      | ok r =>
        by_cases hd : s.inBounds d.raw
        · simp only [bind, Except.bind, hf, destAddress, memWrite_ok r hd, pure, Except.pure, Except.ok.injEq] at h
          exact ⟨r, ha, hb, hd, rfl, h.symm⟩
        · simp [bind, Except.bind, hf, destAddress, memWrite_error r hd] at h
    · simp [bind, Except.bind, resolve_ok ha, resolve_error hb] at h
  · simp [bind, Except.bind, resolve_error ha] at h

theorem fullExecute_ok {f : Config → Int → Int → Except Error Word} {a b d : Operand} {s : State} {r : Int}
    (ha : readable s a) (hb : readable s b) (hf : f s.config (operandValue s a) (operandValue s b) = .ok r)
    (hd : s.inBounds d.raw) :
    fullExecute f a b d s = .ok { s with mem := s.mem.write d.raw.toNat r, ptr := s.ptr + 1 + 3 } := by
  simp only [fullExecute, bind, Except.bind, resolve_ok ha, resolve_ok hb, hf, destAddress, memWrite_ok r hd]
  rfl

theorem fullExecute_error_first {f : Config → Int → Int → Except Error Word} {a b d : Operand} {s : State}
    (ha : ¬ readable s a) : fullExecute f a b d s = .error (.outOfBounds a.raw) := by
  simp [fullExecute, bind, Except.bind, resolve_error ha]

theorem fullExecute_error_second {f : Config → Int → Int → Except Error Word} {a b d : Operand} {s : State}
    (ha : readable s a) (hb : ¬ readable s b) : fullExecute f a b d s = .error (.outOfBounds b.raw) := by
  simp [fullExecute, bind, Except.bind, resolve_ok ha, resolve_error hb]

theorem fullExecute_error_alu {f : Config → Int → Int → Except Error Word} {a b d : Operand} {s : State} {e : Error}
    (ha : readable s a) (hb : readable s b) (hf : f s.config (operandValue s a) (operandValue s b) = .error e) :
    fullExecute f a b d s = .error e := by
  simp [fullExecute, bind, Except.bind, resolve_ok ha, resolve_ok hb, hf]

theorem fullExecute_error_destination {f : Config → Int → Int → Except Error Word} {a b d : Operand} {s : State}
    {r : Int} (ha : readable s a) (hb : readable s b)
    (hf : f s.config (operandValue s a) (operandValue s b) = .ok r) (hd : ¬ s.inBounds d.raw) :
    fullExecute f a b d s = .error (.outOfBounds d.raw) := by
  simp [fullExecute, bind, Except.bind, resolve_ok ha, resolve_ok hb, hf, destAddress, memWrite_error r hd]

/-- All a jump can do when it completes: the condition readable, and the target's value or the next address in
`ptr`. -/
theorem jumpExecute_cases {taken : Int → Bool} {c t : Operand} {s u : State}
    (h : jumpExecute taken c t s = .ok u) :
    readable s c ∧
      ((taken (operandValue s c) = true ∧ readable s t ∧ u = s.jumpTo (operandValue s t)) ∨
        (taken (operandValue s c) = false ∧ (s.config.jumpTargetEager = true → readable s t) ∧
          u = s.advance 2)) := by
  unfold jumpExecute at h
  by_cases hc : readable s c
  · refine ⟨hc, ?_⟩
    rw [resolve_ok hc] at h
    by_cases ht : readable s t
    · rw [resolve_ok ht] at h
      cases hk : taken (operandValue s c) <;> cases he : s.config.jumpTargetEager <;>
        simp_all [bind, Except.bind, pure, Except.pure]
    · rw [resolve_error ht] at h
      cases hk : taken (operandValue s c) <;> cases he : s.config.jumpTargetEager <;>
        simp_all [bind, Except.bind, pure, Except.pure]
  · simp [bind, Except.bind, resolve_error hc] at h

theorem jumpExecute_taken {taken : Int → Bool} {c t : Operand} {s : State} (hc : readable s c)
    (hk : taken (operandValue s c) = true) (ht : readable s t) :
    jumpExecute taken c t s = .ok (s.jumpTo (operandValue s t)) := by
  simp [jumpExecute, bind, Except.bind, pure, Except.pure, resolve_ok hc, resolve_ok ht, hk]

theorem jumpExecute_notTaken {taken : Int → Bool} {c t : Operand} {s : State} (hc : readable s c)
    (hk : taken (operandValue s c) = false) (ht : s.config.jumpTargetEager = true → readable s t) :
    jumpExecute taken c t s = .ok (s.advance 2) := by
  cases he : s.config.jumpTargetEager with
  | true => simp [jumpExecute, bind, Except.bind, pure, Except.pure, resolve_ok hc, resolve_ok (ht he), hk, he]
  | false => simp [jumpExecute, bind, Except.bind, pure, Except.pure, resolve_ok hc, hk, he]

theorem jumpExecute_error_condition {taken : Int → Bool} {c t : Operand} {s : State} (hc : ¬ readable s c) :
    jumpExecute taken c t s = .error (.outOfBounds c.raw) := by
  simp [jumpExecute, bind, Except.bind, resolve_error hc]

theorem jumpExecute_error_target {taken : Int → Bool} {c t : Operand} {s : State} (hc : readable s c)
    (hk : taken (operandValue s c) = true ∨ s.config.jumpTargetEager = true) (ht : ¬ readable s t) :
    jumpExecute taken c t s = .error (.outOfBounds t.raw) := by
  have hb : (taken (operandValue s c) || s.config.jumpTargetEager) = true := by simpa using hk
  simp [jumpExecute, bind, Except.bind, resolve_ok hc, resolve_error ht, hb]

/-- Every instruction's execute phase answers a next state. -/
theorem exec_isNext (i : Instr) (s : State) : ∃ t, exec i s = .next t := by
  cases i <;> first | exact commit_isNext s _ | exact ⟨_, rfl⟩

end Sys2Proof.Machine
end

