-- ==== Sys2Proof/Laws/Exec.lean ====
section
/-! SUPPORT. Everything the execute phase of an instruction can do, said once. -/

namespace Sys2Proof.Machine

/-- The next states of an execute phase: the error taken, or the effect of one of the nine instructions. -/
inductive ExecEffect (i : Instr) (s : State) : State → Prop where
  /-- The error taken from the state before (R117). -/
  | fail (e : Error) : ExecEffect i s (s.fail e)
  /-- A Full instruction's result written at its destination. -/
  | full (a b d : Operand) (r : Int) (f : Config → Int → Int → Except Error Word) :
      (i = .add a b d ∧ f = aluAdd ∨ i = .mul a b d ∧ f = aluMul ∨ i = .lt a b d ∧ f = aluLt ∨
        i = .eq a b d ∧ f = aluEq) →
      readable s a → readable s b → s.inBounds d.raw →
      f s.config (operandValue s a) (operandValue s b) = .ok r →
      ExecEffect i s { s with mem := s.mem.write d.raw.toNat r, ptr := s.ptr + 1 + 3 }
  /-- The input word written at the destination. -/
  | input (d : Operand) (x2 x3 : Mode) (v : Int) : i = .input d x2 x3 → s.inLatch = some v → s.inBounds d.raw →
      ExecEffect i s { s with mem := s.mem.write d.raw.toNat v, ptr := s.ptr + 1 + 1 }
  /-- The operand's value appended to the output log. -/
  | out (a : Operand) (x2 x3 : Mode) : i = .out a x2 x3 → readable s a →
      ExecEffect i s ((s.emit (operandValue s a)).advance 1)
  /-- A taken jump. -/
  | taken (c t : Operand) (x3 : Mode) : (i = .jt c t x3 ∨ i = .jf c t x3) → readable s c → readable s t →
      ExecEffect i s (s.jumpTo (operandValue s t))
  /-- A jump not taken. -/
  | notTaken (c t : Operand) (x3 : Mode) : (i = .jt c t x3 ∨ i = .jf c t x3) → readable s c →
      ExecEffect i s (s.advance 2)
  /-- The halt. -/
  | hlt (x1 x2 x3 : Mode) : i = .hlt x1 x2 x3 → ExecEffect i s (s.halt.advance 0)

theorem full_effect {i : Instr} {s t : State} {f : Config → Int → Int → Except Error Word} {a b d : Operand}
    (hi : i = .add a b d ∧ f = aluAdd ∨ i = .mul a b d ∧ f = aluMul ∨ i = .lt a b d ∧ f = aluLt ∨
      i = .eq a b d ∧ f = aluEq)
    (h : commit s (fullExecute f a b d s) = .next t) : ExecEffect i s t := by
  rcases commit_cases h with h | ⟨e, -, rfl⟩
  · obtain ⟨r, ha, hb, hd, hf, rfl⟩ := fullExecute_cases h
    exact .full a b d r f hi ha hb hd hf
  · exact .fail e

theorem jump_effect {i : Instr} {s t : State} {k : Int → Bool} {c g : Operand} {x3 : Mode}
    (hi : i = .jt c g x3 ∨ i = .jf c g x3) (h : commit s (jumpExecute k c g s) = .next t) : ExecEffect i s t := by
  rcases commit_cases h with h | ⟨e, -, rfl⟩
  · obtain ⟨hc, ⟨-, hg, rfl⟩ | ⟨-, -, rfl⟩⟩ := jumpExecute_cases h
    · exact .taken c g x3 hi hc hg
    · exact .notTaken c g x3 hi hc
  · exact .fail e

theorem input_effect {s t : State} {d : Operand} {x2 x3 : Mode} (h : execInput d s = .next t) :
    ExecEffect (.input d x2 x3) s t := by
  rcases commit_cases h with h | ⟨e, -, rfl⟩
  · cases hl : s.inLatch with
    | none => simp [readLatch, hl, bind, Except.bind] at h
    | some v =>
      by_cases hb : s.inBounds d.raw
      · have effect := ExecEffect.input (i := .input d x2 x3) (s := s) d x2 x3 v rfl hl hb
        simp only [readLatch, hl, bind, Except.bind, destAddress, memWrite_ok v hb, pure, Except.pure,
          Except.ok.injEq] at h effect
        subst h
        exact effect
      · simp [readLatch, hl, bind, Except.bind, destAddress, memWrite_error v hb] at h
  · exact .fail e

theorem out_effect {s t : State} {a : Operand} {x2 x3 : Mode} (h : execOut a s = .next t) :
    ExecEffect (.out a x2 x3) s t := by
  rcases commit_cases h with h | ⟨e, -, rfl⟩
  · by_cases ha : readable s a
    · simp only [resolve_ok ha, bind, Except.bind, pure, Except.pure, Except.ok.injEq] at h
      subst h
      exact .out a x2 x3 rfl ha
    · simp [resolve_error ha, bind, Except.bind] at h
  · exact .fail e

/-- If `exec` answers a next state, it is one of the effects. -/
theorem exec_effect {i : Instr} {s t : State} (h : exec i s = .next t) : ExecEffect i s t := by
  cases i with
  | add a b d => exact full_effect (f := aluAdd) (a := a) (b := b) (d := d) (by simp) h
  | mul a b d => exact full_effect (f := aluMul) (a := a) (b := b) (d := d) (by simp) h
  | input d x2 x3 => exact input_effect h
  | out a x2 x3 => exact out_effect h
  | jt c t x3 => exact jump_effect (k := testNonzero) (c := c) (g := t) (x3 := x3) (by simp) h
  | jf c t x3 => exact jump_effect (k := testZero) (c := c) (g := t) (x3 := x3) (by simp) h
  | lt a b d => exact full_effect (f := aluLt) (a := a) (b := b) (d := d) (by simp) h
  | eq a b d => exact full_effect (f := aluEq) (a := a) (b := b) (d := d) (by simp) h
  | hlt x1 x2 x3 =>
    cases h
    exact .hlt x1 x2 x3 rfl

end Sys2Proof.Machine
end

