-- ==== Sys2Proof/Laws/PerInstr.lean ====
section
/-! SUPPORT. Facts about every instruction as syntax, one lemma per constructor. -/

namespace Sys2Proof.Laws.CanonicalHeader

/-- The canonical header is a word of every admitted width: it lies in `1 .. 11199` (R6, R66), and an instruction's
encoding has `1 + k` words (R55). -/
def Statement (i : Instr) : Prop :=
  1 ≤ i.header ∧ i.header ≤ 11199 ∧ (encode i).length = 1 + i.opcode.arity

theorem bounds (i : Instr) : 1 ≤ i.header ∧ i.header ≤ 11199 := by
  have h0 : 1 ≤ i.opcode.code ∧ i.opcode.code ≤ 99 := by cases i.opcode <;> decide
  have h1 := i.modes.1.digitOf_lt
  have h2 := i.modes.2.1.digitOf_lt
  have h3 := i.modes.2.2.digitOf_lt
  unfold Instr.header
  omega

theorem add (a b d : Operand) : Statement (.add a b d) := ⟨(bounds _).1, (bounds _).2, rfl⟩

theorem mul (a b d : Operand) : Statement (.mul a b d) := ⟨(bounds _).1, (bounds _).2, rfl⟩

theorem input (d : Operand) (x2 x3 : Mode) : Statement (.input d x2 x3) := ⟨(bounds _).1, (bounds _).2, rfl⟩

theorem out (a : Operand) (x2 x3 : Mode) : Statement (.out a x2 x3) := ⟨(bounds _).1, (bounds _).2, rfl⟩

theorem jt (c t : Operand) (x3 : Mode) : Statement (.jt c t x3) := ⟨(bounds _).1, (bounds _).2, rfl⟩

theorem jf (c t : Operand) (x3 : Mode) : Statement (.jf c t x3) := ⟨(bounds _).1, (bounds _).2, rfl⟩

theorem lt (a b d : Operand) : Statement (.lt a b d) := ⟨(bounds _).1, (bounds _).2, rfl⟩

theorem eq (a b d : Operand) : Statement (.eq a b d) := ⟨(bounds _).1, (bounds _).2, rfl⟩

theorem hlt (x1 x2 x3 : Mode) : Statement (.hlt x1 x2 x3) := ⟨(bounds _).1, (bounds _).2, rfl⟩

end Sys2Proof.Laws.CanonicalHeader
end

