-- ==== Sys2Proof/Laws/Step.lean ====
section
/-! SUPPORT. What a step can do. -/

namespace Sys2Proof.Machine

theorem step_running {s : State} (h : s.status = .running) :
    step s = match fetchDecode s with
      | .ok i => exec i s
      | .error e => .next (s.fail e) := by
  simp only [step, h]
  cases fetchDecode s <;> rfl

theorem step_ended {s : State} (h : s.status ≠ .running) : step s = .next s := by
  unfold step
  split
  · exact absurd ‹_› h
  · rfl
  · rfl

/-- Everything a step can do: nothing (the run has ended), take a decode error, or execute the instruction at
`ptr`. -/
theorem step_cases {s t : State} (h : step s = .next t) :
    (s.status ≠ .running ∧ t = s) ∨
    (s.status = .running ∧ ∃ e, fetchDecode s = .error e ∧ t = s.fail e) ∨
    (s.status = .running ∧ ∃ i, fetchDecode s = .ok i ∧ exec i s = .next t) := by
  by_cases hs : s.status = .running
  · rw [step_running hs] at h
    cases hd : fetchDecode s with
    | error e => exact .inr (.inl ⟨hs, e, rfl, by simpa [hd] using h.symm⟩)
    | ok i => exact .inr (.inr ⟨hs, i, rfl, by simpa [hd] using h⟩)
  · rw [step_ended hs] at h
    exact .inl ⟨hs, by simpa using h.symm⟩

theorem fetchDecode_ok {s : State} {i : Instr} (h : fetchDecode s = .ok i) :
    ∃ rest, decode s.config (fetchWindow s) = .ok (i, rest) := by
  unfold fetchDecode at h
  split at h
  · rename_i j rest hd
    cases h
    exact ⟨rest, hd⟩
  · cases h

/-- The fetch window holds the words from the address on, as many as stand below `N`. -/
theorem fetchWords_get {s : State} {a : Int} {k j : Nat} {w : Word} (h : (fetchWords s a k)[j]? = some w) :
    s.inBounds (a + j) ∧ w = s.mem.read (a + j).toNat := by
  induction k generalizing a j with
  | zero => simp [fetchWords] at h
  | succ k ih =>
    by_cases hb : s.inBounds a
    · simp only [fetchWords, fetchWord_ok hb] at h
      cases j with
      | zero =>
        simp only [List.getElem?_cons_zero, Option.some.injEq] at h
        simpa [← h] using hb
      | succ j =>
        have := ih (by simpa using h)
        have e : a + 1 + (j : Int) = a + ((j + 1 : Nat) : Int) := by push_cast; ring
        rwa [e] at this
    · simp [fetchWords, fetchWord_error hb] at h

/-- The window has `j` words or more exactly when the `j` words from the address on are in bounds. -/
theorem fetchWords_length {s : State} {a : Int} {k j : Nat} (hj : 1 ≤ j) (hk : j ≤ k) :
    j ≤ (fetchWords s a k).length ↔ 0 ≤ a ∧ a + j ≤ s.N := by
  induction k generalizing a j with
  | zero => omega
  | succ k ih =>
    by_cases hb : s.inBounds a
    · simp only [fetchWords, fetchWord_ok hb, List.length_cons]
      obtain ⟨hb1, hb2⟩ := hb
      rcases Nat.lt_or_ge 1 j with h1 | h1
      · have := ih (a := a + 1) (j := j - 1) (by omega) (by omega)
        constructor
        · intro h
          have h' := this.1 (by omega)
          omega
        · intro h
          have h' := this.2 (by omega)
          omega
      · omega
    · simp only [fetchWords, fetchWord_error hb, List.length_nil]
      simp only [State.inBounds, not_and, not_lt] at hb
      constructor
      · omega
      · rintro ⟨h1, h2⟩
        have := hb h1
        omega

theorem fetchWords_length_le (s : State) (a : Int) (k : Nat) : (fetchWords s a k).length ≤ k := by
  induction k generalizing a with
  | zero => simp [fetchWords]
  | succ k ih =>
    simp only [fetchWords]
    split <;> simp [ih]

/-- With the header in bounds, the window is the header and the operand words after it. -/
theorem fetchWindow_cons {s : State} (h : s.inBounds s.ptr) :
    fetchWindow s = s.mem.read s.ptr.toNat :: fetchWords s (s.ptr + 1) 3 := by
  simp [fetchWindow, fetchWords, fetchWord_ok h]

/-- Words that stand in bounds from an address on are the beginning of the window fetched there. -/
theorem fetchWords_of_words {s : State} (ws : List Word) (a : Int) (k : Nat) (hk : ws.length ≤ k) (h0 : 0 ≤ a)
    (hN : a + ws.length ≤ s.N) (h : ∀ (j : Nat) (w : Word), ws[j]? = some w → s.mem.read (a + j).toNat = w) :
    ∃ rest, fetchWords s a k = ws ++ rest := by
  induction ws generalizing a k with
  | nil => exact ⟨_, rfl⟩
  | cons w ws ih =>
    cases k with
    | zero => simp at hk
    | succ k =>
      simp only [List.length_cons] at hk hN
      obtain ⟨rest, hr⟩ := ih (a + 1) k (by omega) (by omega) (by push_cast at hN ⊢; omega) fun j v hj => by
        rw [← h (j + 1) v (by simpa using hj)]
        congr 2
        push_cast
        ring
      have hb : s.inBounds a := ⟨h0, by push_cast at hN; omega⟩
      have h00 := h 0 w rfl
      simp only [Nat.cast_zero, add_zero] at h00
      exact ⟨rest, by simp [fetchWords, fetchWord_ok hb, hr, h00]⟩

/-- What placing words leaves at each address. -/
theorem read_placeWords (ws : List Word) (m : Memory) (a b : Nat) :
    (placeWords m a ws).read b = if a ≤ b ∧ b < a + ws.length then ws.getD (b - a) 0 else m.read b := by
  induction ws generalizing m a with
  | nil => simp [placeWords]
  | cons w ws ih =>
    simp only [placeWords, ih, List.length_cons, Memory.read_write]
    rcases lt_trichotomy b a with h | rfl | h
    · rw [if_neg (by omega), if_neg (by omega), if_neg (by omega)]
    · rw [if_neg (by omega), if_pos rfl, if_pos (by omega)]
      simp
    · have e : b - a = (b - (a + 1)) + 1 := by omega
      by_cases h2 : b < a + 1 + ws.length
      · rw [if_pos (by omega), if_pos (by omega), e, List.getD_cons_succ]
      · rw [if_neg (by omega), if_neg (by omega), if_neg (by omega)]

/-! The fields of a placed instruction. They are proved by cases, so that `simp` rewrites with them and the kernel never
unfolds the words placed. -/

section
variable (s : State) (ws : List Word)

@[simp] theorem placeInstruction_config : (placeInstruction s ws).config = s.config := by
  cases s
  rfl
@[simp] theorem placeInstruction_mem : (placeInstruction s ws).mem = placeWords s.mem s.ptr.toNat ws := by
  cases s
  rfl
@[simp] theorem placeInstruction_N : (placeInstruction s ws).N = max s.N (s.ptr.toNat + ws.length) := by
  cases s
  rfl
@[simp] theorem placeInstruction_ptr : (placeInstruction s ws).ptr = s.ptr.toNat := by
  cases s
  rfl
@[simp] theorem placeInstruction_status : (placeInstruction s ws).status = .running := by
  cases s
  rfl
@[simp] theorem placeInstruction_inLatch : (placeInstruction s ws).inLatch = s.inLatch := by
  cases s
  rfl
@[simp] theorem placeInstruction_outLog : (placeInstruction s ws).outLog = s.outLog := by
  cases s
  rfl

end

theorem withFetchWord_eq (s : State) (nbits w : Nat) :
    s.withFetchWord nbits w = placeInstruction s (tableWords nbits w) := rfl

/-- The next fetch after placing four words reads exactly them. -/
theorem fetchWindow_placeInstruction (s : State) {ws : List Word} (h : ws.length = 4) :
    fetchWindow (placeInstruction s ws) = ws := by
  obtain ⟨rest, hr⟩ := fetchWords_of_words (s := placeInstruction s ws) ws (placeInstruction s ws).ptr 4 h.le
    (by simp) (by simp) fun j v hj => by
      have hlt := (List.getElem?_eq_some_iff.1 hj).1
      have hi : ((s.ptr.toNat : Int) + j).toNat - s.ptr.toNat = j := by omega
      rw [placeInstruction_mem, placeInstruction_ptr, read_placeWords, if_pos (by omega), hi,
        List.getD_eq_getElem?_getD, hj]
      rfl
  have hle := fetchWords_length_le (placeInstruction s ws) (placeInstruction s ws).ptr 4
  have hrest : rest = [] := by
    rw [hr, List.length_append] at hle
    exact List.length_eq_zero_iff.1 (by omega)
  rw [fetchWindow, hr, hrest, List.append_nil]

/-- The step after placing four words that decode runs their instruction. -/
theorem step_placeInstruction (s : State) {ws rest : List Word} {i : Instr} (h : ws.length = 4)
    (hd : decode s.config ws = .ok (i, rest)) : step (placeInstruction s ws) = exec i (placeInstruction s ws) := by
  have hf : fetchDecode (placeInstruction s ws) = .ok i := by
    simp [fetchDecode, fetchWindow_placeInstruction s h, hd]
  rw [step_running (placeInstruction_status s ws), hf]

end Sys2Proof.Machine
end

