-- ==== Sys2Proof/Tests/Slice0.lean ====
section
/-! SUPPORT. The model's own tests: expected results from spec/95_test_vectors.md (the vector is named in each comment)
or counted by hand from the rule named, and a witness for the hypotheses of each statement. -/

namespace Sys2Proof.Tests

open Sys2Proof.Machine Sys2Proof.Claims

/-- A launched state under this spec's parameter values. -/
def boot (image : List Word) (input : Option Word) : State := launchState .specValues image input

/-- The same under another configuration. -/
def bootWith (c : Config) (image : List Word) (input : Option Word) : State := launchState c image input

def minimalCfg : Config := { Config.specValues with profile := .minimal }
def faultCfg : Config := { Config.specValues with overflow := .fault }
def eagerCfg : Config := { Config.specValues with jumpTargetEager := true }
def asPositionCfg : Config := { Config.specValues with destImmediate := .asPosition }

/-- The next state of an outcome. -/
def after : Host.Outcome State Fault Refusal → Option State
  | .next t => some t
  | .fault _ => none
  | .refused _ => none

/-- Word `a`, `ptr` and the status after one step. -/
def shows (s : State) (a : Nat) : Option (Int × Int × Status) :=
  (after (step s)).map fun t => (t.mem.read a, t.ptr, t.status)

/-! ### WellFormed: an ill-formed term for each check, and a well-formed neighbour -/

theorem test_wf_opcode_not_in_minimal : (Instr.input (pos 0) .position .position).wf minimalCfg = false := by decide

theorem test_wf_mode_not_in_minimal : (Instr.hlt .position .position .immediate).wf minimalCfg = false := by decide

theorem test_wf_immediate_destination : (Instr.add (pos 0) (pos 0) (imm 0)).wf .specValues = false := by decide

theorem test_wf_operand_out_of_range : (Instr.out (imm 2147483648) .position .position).wf .specValues = false := by
  decide

theorem test_wf_accepts :
    (Instr.add (imm (-2147483648)) (pos 2147483647) (pos 0)).wf .specValues = true ∧
      (Instr.add (pos 0) (pos 0) (imm 0)).wf asPositionCfg = true ∧
      (Instr.mul (pos 0) (pos 0) (pos 0)).wf minimalCfg = true := by decide

/-! ### Decoding -/

/-- One word sequence for each opcode, written out from R65: pattern digits, then raw operands. -/
theorem test_decode_every_opcode :
    decode .specValues [1, 1, 2, 0, 99] = .ok (.add (pos 1) (pos 2) (pos 0), [99]) ∧
    decode .specValues [1002, 4, 3, 4, 33] = .ok (.mul (pos 4) (imm 3) (pos 4), [33]) ∧
    decode .specValues [3, 0] = .ok (.input (pos 0) .position .position, []) ∧
    decode .specValues [104, -5] = .ok (.out (imm (-5)) .position .position, []) ∧
    decode .specValues [105, 1, 7] = .ok (.jt (imm 1) (pos 7) .position, []) ∧
    decode .specValues [1006, 5, 6] = .ok (.jf (pos 5) (imm 6) .position, []) ∧
    decode .specValues [107, -1, 0, 5] = .ok (.lt (imm (-1)) (pos 0) (pos 5), []) ∧
    decode .specValues [1108, 8, 8, 5] = .ok (.eq (imm 8) (imm 8) (pos 5), []) ∧
    decode .specValues [99] = .ok (.hlt .position .position .position, []) := by decide

/-- V3: the modes of headers 11101, 2 and 1002. -/
theorem test_decode_v3 :
    decodeHeader .specValues 11101 = .ok ⟨.add, .immediate, .immediate, .immediate⟩ ∧
    decodeHeader .specValues 2 = .ok ⟨.mul, .position, .position, .position⟩ ∧
    decodeHeader .specValues 1002 = .ok ⟨.mul, .position, .immediate, .position⟩ := by decide

/-- DC3, DC6, DC9, DC12 to DC14, DC17, DC18, DC20, DC21, V8. -/
theorem test_decode_errors :
    decode .specValues [11101, 1, 1, 0] = .error (.immediateDestination 3) ∧
    decode .specValues [103, 0] = .error (.immediateDestination 1) ∧
    decode .specValues [250] = .error (.unrecognisedParameterMode 2) ∧
    decode .specValues [100] = .error (.unknownOpcode 0) ∧
    decode .specValues [1150, 0, 0, 0] = .error (.unknownOpcode 50) ∧
    decode .specValues [-199] = .error (.unknownOpcode (-99)) ∧
    decode .specValues [-100] = .error (.unknownOpcode 0) := by decide

/-- The mode digits and lengths. -/
theorem test_decode_errors_digits :
    decode .specValues [-99] = .error (.unknownOpcode (-99)) ∧
    decode .specValues [1000099] = .ok (.hlt .position .position .position, []) ∧
    decode .specValues [20099] = .error (.unrecognisedParameterMode 2) ∧
    decode .specValues [90001, 0, 0, 0] = .error (.unrecognisedParameterMode 9) ∧
    decode .specValues [11101, 1, 1] = .error .unexpectedEndOfInput ∧
    decode .specValues [] = .error .unexpectedEndOfInput := by decide

/-- DC23, DC24: profile `minimal`. -/
theorem test_decode_minimal :
    decode minimalCfg [1101, 1, 1, 0] = .error (.unrecognisedParameterMode 1) ∧
    decode minimalCfg [3, 0] = .error (.unknownOpcode 3) ∧
    decode minimalCfg [2, 3, 11, 0] = .ok (.mul (pos 3) (pos 11) (pos 0), []) := by decide

/-- R74: `add #100, #-1, [4]` assembles to `1101, 100, -1, 4`. -/
theorem test_encode_r74 : encode (.add (imm 100) (imm (-1)) (pos 4)) = [1101, 100, -1, 4] := by decide

/-- The table's words: add with zero operands; and a 4-word instruction whose second word is -1. -/
theorem test_table_words :
    decodeTableWord 8 1 = some (.add (pos 0) (pos 0) (pos 0)) ∧
    decodeTableWord 128 (1101 + 2 ^ 32 * (2 ^ 32 - 1) + 2 ^ 64 * 7 + 2 ^ 96 * 3) =
      some (.add (imm (-1)) (imm 7) (pos 3)) ∧
    decodeTableWord 16 50 = none := by decide

/-- The placed instruction is what the first step after reset runs: `hlt`, and `jt #1, [0]` to the header's value. -/
theorem test_fetch_word :
    (after (step (State.reset.withFetchWord 8 99))).map (fun t => (t.status, t.ptr)) = some (.halted, 1) ∧
    (after (step (State.reset.withFetchWord 128 (105 + 2 ^ 32)))).map (·.ptr) = some 105 := by decide

/-! ### Instructions, one step each -/

/-- V1. -/
theorem test_add_v1 : shows (boot [1, 1, 2, 0, 99] none) 0 = some (3, 4, .running) := by decide

/-- A3 and M3: a wrapped sum; a destination equal to N. -/
theorem test_add_wrap_and_bounds :
    shows (boot [1101, 2147483647, 1, 5, 99, 0] none) 5 = some (-2147483648, 4, .running) ∧
    shows (bootWith faultCfg [1101, 2147483647, 1, 5, 99, 0] none) 5 = some (0, 0, .failed .arithmeticOverflow) ∧
    shows (boot [1, 0, 0, 5, 99] none) 0 = some (1, 0, .failed (.outOfBounds 5)) := by decide

/-- M10: a source that is also the destination and the running header. -/
theorem test_mul_m10 : shows (boot [2, 0, 0, 0, 99] none) 0 = some (4, 4, .running) := by decide

/-- A10, A11, A13: wrapped products. -/
theorem test_mul_wrap :
    shows (boot [1102, 46341, 46341, 5, 99, 0] none) 5 = some (-2147479015, 4, .running) ∧
    shows (boot [1102, -2147483648, -1, 5, 99, 0] none) 5 = some (-2147483648, 4, .running) ∧
    shows (boot [1102, 65536, 32768, 5, 99, 0] none) 5 = some (-2147483648, 4, .running) := by decide

/-- V4 and IO3: the latch is written and kept. -/
theorem test_in_v4 :
    shows (boot [3, 0, 4, 0, 99] (some 7)) 0 = some (7, 2, .running) ∧
    (after (step (boot [3, 0, 99] (some (-4))))).map (·.inLatch) = some (some (-4)) := by decide

/-- IO1, IO4, IO5: no input word, checked before the address. -/
theorem test_in_errors :
    shows (boot [3, 0, 99] none) 0 = some (3, 0, .failed .missingInput) ∧
    shows (boot [3, 7, 99] (some 1)) 0 = some (3, 0, .failed (.outOfBounds 7)) ∧
    shows (boot [3, 7, 99] none) 0 = some (3, 0, .failed .missingInput) := by decide

/-- IO7, IO8, IO9. -/
theorem test_out :
    (after (step (boot [104, -5, 99] none))).map (fun t => (t.outLog, t.ptr)) = some ([-5], 2) ∧
    (after (step (boot [4, 3, 99, -9] none))).map (·.outLog) = some [-9] ∧
    (after (step (boot [4, 9, 99] none))).map (fun t => (t.outLog, t.status)) =
      some ([], .failed (.outOfBounds 9)) := by decide

/-- The second word emitted stands after the first (R27). -/
theorem test_out_appends :
    (after (step { boot [104, 2, 99] none with outLog := [1] })).map (·.outLog) = some [1, 2] := by decide

/-- J1, J2, J3, J6. -/
theorem test_jt :
    shows (boot [1105, 1, 4, 99, 99] none) 0 = some (1105, 4, .running) ∧
    shows (boot [1105, 0, 4, 99, 99] none) 0 = some (1105, 3, .running) ∧
    shows (boot [1105, -1, 4, 99, 99] none) 0 = some (1105, 4, .running) ∧
    shows (boot [5, 5, 6, 99, 99, 7, 4] none) 0 = some (5, 4, .running) := by decide

/-- J8, J10, J11: a target outside memory; an unread target under each eagerness. -/
theorem test_jt_targets :
    shows (boot [1105, 1, -1] none) 0 = some (1105, -1, .running) ∧
    shows (boot [5, 4, 100, 99, 0] none) 0 = some (5, 3, .running) ∧
    shows (bootWith eagerCfg [5, 4, 100, 99, 0] none) 0 = some (5, 0, .failed (.outOfBounds 100)) := by decide

/-- J4, J5, J7. -/
theorem test_jf :
    shows (boot [1106, 0, 4, 99, 99] none) 0 = some (1106, 4, .running) ∧
    shows (boot [1106, 7, 4, 99, 99] none) 0 = some (1106, 3, .running) ∧
    shows (boot [6, 5, 6, 99, 99, 0, 4] none) 0 = some (6, 4, .running) := by decide

/-- K1 to K5: signed and strict. -/
theorem test_lt :
    shows (boot [1107, -1, 0, 5, 99, 9] none) 5 = some (1, 4, .running) ∧
    shows (boot [1107, 5, 5, 5, 99, 9] none) 5 = some (0, 4, .running) ∧
    shows (boot [1107, -2147483648, 2147483647, 5, 99, 9] none) 5 = some (1, 4, .running) ∧
    shows (boot [1107, 2147483647, -2147483648, 5, 99, 9] none) 5 = some (0, 4, .running) := by decide

/-- K6, K7, and `[8,0,0,0,99]`, which overwrites its own header. -/
theorem test_eq :
    shows (boot [1108, 8, 8, 5, 99, 9] none) 5 = some (1, 4, .running) ∧
    shows (boot [1108, 8, -8, 5, 99, 9] none) 5 = some (0, 4, .running) ∧
    shows (boot [8, 0, 0, 0, 99] none) 0 = some (1, 4, .running) := by decide

/-- H1, DC19, H4. -/
theorem test_hlt :
    shows (boot [99] none) 0 = some (99, 1, .halted) ∧
    shows (boot [11199] none) 0 = some (11199, 1, .halted) ∧
    shows (boot [299] none) 0 = some (299, 0, .failed (.unrecognisedParameterMode 2)) := by decide

/-! ### Fetch, priority, launch, results -/

/-- M1, V7, E2, M8, E8, and J9's second step. -/
theorem test_priority :
    shows (boot [] none) 0 = some (0, 0, .failed .unexpectedEndOfInput) ∧
    shows (boot [5, 0] none) 0 = some (5, 0, .failed .unexpectedEndOfInput) ∧
    shows (boot [11101, 1, 1] none) 0 = some (11101, 0, .failed .unexpectedEndOfInput) ∧
    shows (boot [1, 7, 8, 0, 99] none) 0 = some (1, 0, .failed (.outOfBounds 7)) ∧
    shows (boot [10001, 9, 9, 9] none) 0 = some (10001, 0, .failed (.immediateDestination 3)) ∧
    shows { boot [1105, 1, 3] none with ptr := 3 } 0 = some (1105, 3, .failed .unexpectedEndOfInput) := by decide

/-- DC4: `as_position`. -/
theorem test_as_position : shows (bootWith asPositionCfg [11101, 1, 1, 0, 99] none) 0 = some (2, 4, .running) := by
  decide

/-- V5: a word written at the next header is the next instruction. -/
theorem test_self_modifying :
    shows { boot [1101, 100, -1, 4, 99] none with ptr := 4 } 4 = some (99, 5, .halted) ∧
    shows (boot [1101, 100, -1, 4, 0] none) 4 = some (99, 4, .running) := by decide

/-- I20, R91: a step request after the end changes nothing. -/
theorem test_step_ended :
    after (step { boot [99] none with status := .halted }) = some { boot [99] none with status := .halted } := by
  decide

/-- Memory stays canonical: writing the word an unlisted address reads as removes the entry. -/
theorem test_canonical_write :
    Memory.write [(0, 5), (3, -1)] 3 0 = [(0, 5)] ∧ Memory.write [(0, 5), (3, -1)] 2 7 = [(0, 5), (2, 7), (3, -1)] := by
  decide

/-- R129: what a launch refuses. -/
theorem test_launch_refused :
    launch { Config.specValues with maxWords := 2 } [1, 2, 3] none = .refused .imageTooLong ∧
    launch .specValues [2147483648] none = .refused .imageWordOutOfRange ∧
    launch .specValues [99] (some (-2147483649)) = .refused .inputWordOutOfRange ∧
    launch { Config.specValues with W := 8 } [99] none = .refused .configurationOutOfRange :=
  ⟨rfl, rfl, rfl, rfl⟩

/-- R133: the result by status, and the output log exposed. -/
theorem test_result :
    State.result { boot [3, 99] none with status := .halted, outLog := [4] } = some (.halted 3 [4]) ∧
    State.result { boot [3, 99] none with status := .failed .missingInput } = some (.failed .missingInput) ∧
    State.result (boot [99] none) = none := by decide

/-! ### Witnesses: the hypotheses of each statement can be met, each clause at a boundary value -/

theorem witness_LaunchEstablishesResetValues :
    let image : List Word := [-2147483648, 2147483647]
    Config.specValues.wf ∧ image.length ≤ Config.specValues.maxWords ∧ (∀ w ∈ image, inWordRange 32 w) ∧
      (∀ v ∈ some (7 : Word), inWordRange 32 v) ∧ 1 < image.length ∧ inWordRange 32 5 := by decide

theorem witness_LaunchEstablishesInvariant : ∃ t, launch .specValues [99, 2147483647] (some 7) = .next t := ⟨_, rfl⟩

theorem witness_DecodeOfEncodeIsIdentity :
    (Instr.jt (imm (-2147483648)) (pos 2147483647) .immediate).wf .specValues = true := by decide

theorem witness_DecodedWordsAreTheEncoding :
    decode .specValues [700104, -1, 5] = .ok (.out (imm (-1)) .position .position, [5]) ∧
      ∀ p ∈ (Instr.out (imm (-1)) .position .position).rawOperands, inWordRange Config.specValues.W p := by decide

theorem witness_HighHeaderDigitsIgnored : (0 : Int) ≤ 100099 := by decide

theorem witness_MissingModeDigitsArePosition :
    decode .specValues [99] = .ok (.hlt .position .position .position, []) ∧
      decode .specValues [199] = .ok (.hlt .immediate .position .position, []) ∧
      decode .specValues [1199] = .ok (.hlt .immediate .immediate .position, []) := by decide

/-- Every length: 1, 2, 3 and 4 words, the last ending at N; and completed steps, a jump taken among them. -/
theorem witness_InstructionLengthByOpcode :
    fetchDecode (boot [99] none) = .ok (.hlt .position .position .position) ∧
    fetchDecode (boot [104, 1] none) = .ok (.out (imm 1) .position .position) ∧
    fetchDecode (boot [1105, 1, 2] none) = .ok (.jt (imm 1) (imm 2) .position) ∧
    fetchDecode (boot [1101, 1, 2, 3] none) = .ok (.add (imm 1) (imm 2) (pos 3)) ∧
    (∃ t, step (boot [1105, 1, 2] none) = .next t ∧ NotFailed t) ∧
    (∃ t, step (boot [1101, 1, 2, 3] none) = .next t ∧ NotFailed t) :=
  ⟨by decide, by decide, by decide, by decide, ⟨_, rfl, fun e h => by cases h⟩, ⟨_, rfl, fun e h => by cases h⟩⟩

theorem witness_OpcodeFieldSelectsInstruction :
    decode .specValues [11199] = .ok (.hlt .immediate .immediate .immediate, []) ∧
      decode .specValues [1, 0, 0, 0] = .ok (.add (pos 0) (pos 0) (pos 0), []) := by decide

theorem witness_MinimalDecodeIsPartOfFull :
    minimalCfg.profile = .minimal ∧ decode minimalCfg [2, 3, 11, 0] = .ok (.mul (pos 3) (pos 11) (pos 0), []) := by
  decide

theorem witness_FetchOutsideMemoryFails :
    (∃ s : State, s.status = .running ∧ ¬ (0 ≤ s.ptr ∧ s.ptr < s.N) ∧ s.ptr = -1) ∧
    (∃ s : State, s.status = .running ∧ ¬ (0 ≤ s.ptr ∧ s.ptr < s.N) ∧ s.ptr = s.N) :=
  ⟨⟨{ boot [99] none with ptr := -1 }, by decide⟩, ⟨{ boot [99] none with ptr := 1 }, by decide⟩⟩

theorem witness_NegativeHeaderFails :
    ∃ s : State, s.status = .running ∧ 0 ≤ s.ptr ∧ s.ptr < s.N ∧ headerAt s < 0 := ⟨boot [-1] none, by decide⟩

/-- Each slot as the first illegal one: digit 2 in slot 1, 9 in slot 2, and 1 in slot 3 under `minimal`. -/
theorem witness_FirstIllegalModeDigitFails :
    (Fetches (boot [250] none) ∧ ¬ LegalDigit .full (modeDigitAt (boot [250] none) 1)) ∧
    (Fetches (boot [9099] none) ∧ ¬ LegalDigit .full (modeDigitAt (boot [9099] none) 2) ∧
      LegalDigit .full (modeDigitAt (boot [9099] none) 1)) ∧
    (Fetches (bootWith minimalCfg [10099] none) ∧
      ¬ LegalDigit .minimal (modeDigitAt (bootWith minimalCfg [10099] none) 3) ∧
      LegalDigit .minimal (modeDigitAt (bootWith minimalCfg [10099] none) 1) ∧
      LegalDigit .minimal (modeDigitAt (bootWith minimalCfg [10099] none) 2)) := by decide

theorem witness_UnknownOpcodeFieldFails :
    (∃ s, Fetches s ∧ LegalDigits s ∧ ¬ LegalField s.config.profile (fieldAt s) ∧ fieldAt s = 0) ∧
    (∃ s, Fetches s ∧ LegalDigits s ∧ ¬ LegalField s.config.profile (fieldAt s) ∧ fieldAt s = 9) ∧
    (∃ s, Fetches s ∧ LegalDigits s ∧ ¬ LegalField s.config.profile (fieldAt s) ∧ fieldAt s = 3) :=
  ⟨⟨boot [0] none, by decide⟩, ⟨boot [11109] none, by decide⟩, ⟨bootWith minimalCfg [3] none, by decide⟩⟩

/-- One word short, and exactly long enough. -/
theorem witness_TruncatedInstructionFails :
    (∃ s, Fetches s ∧ LegalDigits s ∧ LegalField s.config.profile (fieldAt s) ∧
      (s.N : Int) - 1 < s.ptr + arityOf (fieldAt s)) ∧
    (∃ s, Fetches s ∧ LegalDigits s ∧ LegalField s.config.profile (fieldAt s) ∧
      s.ptr + arityOf (fieldAt s) = (s.N : Int) - 1) :=
  ⟨⟨boot [5, 0] none, by decide⟩, ⟨boot [5, 0, 0] none, by decide⟩⟩

/-- Slot 3 of add and slot 1 of in, under each policy. -/
theorem witness_DestinationDigitPolicy :
    (∃ s, Fetches s ∧ LegalDigits s ∧ LegalField s.config.profile (fieldAt s) ∧
      s.ptr + arityOf (fieldAt s) ≤ (s.N : Int) - 1 ∧ DestSlotIs (fieldAt s) 3 ∧ modeDigitAt s 3 = 1 ∧
      s.config.destImmediate = .reject) ∧
    (∃ s, Fetches s ∧ LegalDigits s ∧ LegalField s.config.profile (fieldAt s) ∧
      s.ptr + arityOf (fieldAt s) ≤ (s.N : Int) - 1 ∧ DestSlotIs (fieldAt s) 1 ∧ modeDigitAt s 1 = 1 ∧
      s.config.destImmediate = .asPosition) :=
  ⟨⟨boot [11101, 1, 1, 0] none, by decide⟩, ⟨bootWith asPositionCfg [103, 0] none, by decide⟩⟩

theorem witness_StepRunsDecodedInstruction :
    ∃ (s : State) (i : Instr), s.status = .running ∧ decode s.config (fetchWindow s) = .ok (i, []) ∧
      i.wf s.config = true ∧ 0 ≤ s.ptr ∧ s.ptr + (encode i).length ≤ s.N ∧
      ((encode i).zipIdx.all fun x => s.mem.read (s.ptr + x.2).toNat == x.1) = true :=
  ⟨boot [1, 1, 2, 0] none, .add (pos 1) (pos 2) (pos 0), by decide⟩

/-- A launched state satisfies the invariant and steps. -/
theorem witness_StepKeepsInvariant : ∃ s t : State, s.Inv ∧ step s = .next t ∧ t ≠ s :=
  ⟨boot [104, 5, 99] (some 7), _,
    { config := by decide, length := by decide, memWf := by decide, memBelow := by decide, memRange := by decide,
      latch := by decide, log := by decide, ptrRange := by decide, haltedNonempty := by decide,
      minimalSilent := by decide },
    rfl, by decide⟩

theorem witness_RunStatesSatisfyInvariant :
    ∃ s t : State, launch .specValues [1101, 100, -1, 4, 0] none = .next s ∧ Reachable s t ∧ t ≠ s :=
  ⟨_, _, rfl, .step .start ⟨rfl, rfl⟩, by decide⟩

theorem witness_FailingStepChangesOnlyStatus :
    ∃ s t : State, s.status = .running ∧ step s = .next t ∧ t.status = .failed (.outOfBounds 7) :=
  ⟨boot [1, 7, 8, 0, 99] none, _, rfl, rfl, rfl⟩

theorem witness_StatusTransitions :
    (∃ s t : State, step s = .next t ∧ s.status = .running ∧ t.status = .halted) ∧
    (∃ s t : State, step s = .next t ∧ s.status = .running ∧ t.status = .running) ∧
    (∃ s t : State, step s = .next t ∧ s.status = .halted) :=
  ⟨⟨boot [99] none, _, rfl, rfl, rfl⟩, ⟨boot [104, 1] none, _, rfl, rfl, rfl⟩,
    ⟨{ boot [99] none with status := .halted }, _, rfl, rfl⟩⟩

theorem witness_StepRequestReturnsStatus :
    (∃ s t : State, s.status = .running ∧ step s = .next t) ∧ ∃ s : State, s.status ≠ .running :=
  ⟨⟨boot [99] none, _, rfl, rfl⟩, { boot [] none with status := .halted }, by decide⟩

/-- For LengthLatchAndConfigurationFixed, OutputLogOnlyAppends and OutputLogIsNeverRead: steps that emit a word, that
fail, and that do neither. -/
theorem witness_step_answers :
    (∃ t, step (boot [104, 42, 99] (some 7)) = .next t ∧ t.outLog = [42]) ∧
    (∃ t, step (boot [4, 9, 99] none) = .next t ∧ t.status = .failed (.outOfBounds 9)) ∧
    (∃ t, step (boot [1105, 0, 0] none) = .next t ∧ t.ptr = 3) :=
  ⟨⟨_, rfl, rfl⟩, ⟨_, rfl, rfl⟩, ⟨_, rfl, rfl⟩⟩

/-- For MinimalProfileHasNoIo and MinimalStepIsFullStep: a step of profile `minimal` that does not fail. -/
theorem witness_minimal_step :
    ∃ s t : State, s.config.profile = .minimal ∧ step s = .next t ∧ NotFailed t :=
  ⟨bootWith minimalCfg [1, 0, 0, 0, 99] none, _, rfl, rfl, fun e h => by cases h⟩

theorem witness_MemoryChangesOnlyAtDestination :
    ∃ s t : State, step s = .next t ∧ t.mem.read 0 ≠ s.mem.read 0 :=
  ⟨boot [1, 1, 2, 0, 99] none, _, rfl, by decide⟩

/-- The first and the last address inside, and the first outside at each end. -/
theorem witness_AccessPrimitivesCheckBounds :
    ∃ s : State, ((0 : Int) ≤ 0 ∧ (0 : Int) < s.N) ∧ ((0 : Int) ≤ 1 ∧ (1 : Int) < s.N) ∧ (s.N : Int) ≤ 2 ∧ (-1 : Int) < 0 :=
  ⟨boot [7, 8] none, by decide⟩

theorem witness_WriteIsSeenByEveryLaterAccess :
    ∃ s t u : State, memWrite s 1 5 = .ok t ∧ memWrite t 0 6 = .ok u := ⟨boot [7, 8] none, _, _, rfl, rfl⟩

theorem witness_StoreToNextHeaderIsFetched :
    ∃ s t : State, s.status = .running ∧ exec (.add (imm 100) (imm (-1)) (pos 4)) s = .next t ∧ NotFailed t ∧
      destAddress (pos 4) = s.ptr + 4 :=
  ⟨boot [1101, 100, -1, 4, 0] none, _, rfl, rfl, (fun e h => by cases h), by decide⟩

theorem witness_CanonicalMemoriesAreExtensional : Memory.wf [(0, 5), (3, -1)] := by decide

theorem witness_WrapIsTheCongruentWord : 1 ≤ 32 ∧ inWordRange 32 (-2147483648) ∧ (2 ^ 32 : Int) ∣ -2147483648 - 2147483648 := by
  decide

/-- Each policy; a sum and a product at the last value in range and one past it. -/
theorem witness_AluSumAndProduct :
    Config.specValues.overflow = .wrap ∧ faultCfg.overflow = .fault ∧
      inWordRange faultCfg.W (2147483646 + 1) ∧ ¬ inWordRange faultCfg.W (2147483647 + 1) ∧
      inWordRange faultCfg.W (65536 * -32768) ∧ ¬ inWordRange faultCfg.W (65536 * 32768) := by decide

theorem witness_InRangeResultsAreExact : 1 ≤ Config.specValues.W ∧ inWordRange Config.specValues.W 2147483647 := by
  decide

/-- The decode exceptions of every opcode field: an illegal digit, one word short, an Immediate destination. -/
theorem witness_DecodeExceptions :
    ([1, 2, 3, 4, 5, 6, 7, 8, 99].all fun f : Nat =>
      decide (Fetches (boot [200 + f] none) ∧ fieldAt (boot [200 + f] none) = f ∧
        ¬ LegalDigit .full (modeDigitAt (boot [200 + f] none) 1))) = true ∧
    ([1, 2, 3, 4, 5, 6, 7, 8].all fun f : Nat =>
      decide (Fetches (boot [(f : Int)] none) ∧ LegalDigits (boot [(f : Int)] none) ∧ LegalField .full f ∧
        ((boot [(f : Int)] none).N : Int) - 1 < (boot [(f : Int)] none).ptr + arityOf f)) = true ∧
    ([1, 2, 7, 8].all fun f : Nat =>
      decide (Fetches (boot [10000 + (f : Int), 0, 0, 0] none) ∧ LegalDigits (boot [10000 + (f : Int), 0, 0, 0] none) ∧
        modeDigitAt (boot [10000 + (f : Int), 0, 0, 0] none) 3 = 1 ∧ DestSlotIs f 3)) = true ∧
    (Fetches (boot [103, 0] none) ∧ LegalDigits (boot [103, 0] none) ∧ DestSlotIs 3 1 ∧
      modeDigitAt (boot [103, 0] none) 1 = 1) := by decide

/-- The clauses of ArithmeticExecutes and ComparisonExecutes, in order, for both policies, at the last address inside
and the first outside. -/
theorem witness_full_instruction_clauses :
    let s := boot [1, 2, 3, 4] none
    let u := bootWith faultCfg [1, 2, 3, 4] none
    ¬ readable s (pos 4) ∧ (readable s (pos 3) ∧ ¬ readable s (pos (-1))) ∧
      (readable u (imm 2147483647) ∧ u.config.overflow = .fault ∧
        ¬ inWordRange u.config.W (operandValue u (imm 2147483647) + operandValue u (pos 0)) ∧
        ¬ inWordRange u.config.W (operandValue u (imm 2147483647) * operandValue u (pos 1))) ∧
      (s.config.overflow = .wrap ∧ ¬ s.inBounds 4) ∧ (readable s (imm 5) ∧ s.inBounds 3) ∧
      (inWordRange u.config.W (operandValue u (pos 0) + operandValue u (pos 3)) ∧
        inWordRange u.config.W (operandValue u (pos 0) * operandValue u (pos 3)) ∧ u.inBounds 0) := by decide

theorem witness_InputFollowsItsRule :
    (boot [3, 0] none).inLatch = none ∧ ((boot [3, 2] (some 7)).inLatch = some 7 ∧ ¬ (boot [3, 2] (some 7)).inBounds 2) ∧
      (boot [3, 1] (some 7)).inBounds 1 := by decide

theorem witness_OutputFollowsItsRule :
    ¬ readable (boot [4, 2] none) (pos 2) ∧ readable (boot [4, 1] none) (pos 1) ∧
      readable (boot [104, -5] none) (imm (-5)) := by decide

/-- The clauses of JumpExecutes: condition unreadable; target unreadable when taken, and when eager; taken; not taken
under each eagerness; for `jt` and, with the condition inverted, for `jf`. -/
theorem witness_jump_clauses :
    let s := boot [5, 0, 9] none
    let u := bootWith eagerCfg [5, 0, 9] none
    ¬ readable s (pos 3) ∧ (readable s (pos 0) ∧ operandValue s (pos 0) ≠ 0 ∧ ¬ readable s (pos 9)) ∧
      (readable u (pos 1) ∧ u.config.jumpTargetEager = true ∧ ¬ readable u (pos 9)) ∧
      (readable s (imm (-1)) ∧ operandValue s (imm (-1)) ≠ 0 ∧ readable s (pos 2)) ∧
      (readable s (pos 1) ∧ operandValue s (pos 1) = 0 ∧ s.config.jumpTargetEager = false) ∧
      (readable u (pos 1) ∧ operandValue u (pos 1) = 0 ∧ readable u (pos 2)) ∧
      (readable u (pos 0) ∧ operandValue u (pos 0) ≠ 0 ∧ readable u (imm 7)) := by decide

theorem witness_PlacedTableWordRunsNext :
    State.reset.config = .specValues ∧ decodeTableWord 8 99 = some (.hlt .position .position .position) ∧
      decodeTableWord 8 7 = some (.lt (pos 0) (pos 0) (pos 0)) := by decide

/-- For StoringInstructionsFrame: each storing instruction answers a next state without failing, and another address
exists. -/
theorem witness_StoringInstructionsFrame :
    let s := boot [1, 2, 3, 4] (some 7)
    (∃ t, exec (.add (pos 0) (imm 1) (pos 3)) s = .next t ∧ NotFailed t) ∧
    (∃ t, exec (.mul (pos 0) (imm 1) (pos 3)) s = .next t ∧ NotFailed t) ∧
    (∃ t, exec (.lt (pos 0) (imm 1) (pos 3)) s = .next t ∧ NotFailed t) ∧
    (∃ t, exec (.eq (pos 0) (imm 1) (pos 3)) s = .next t ∧ NotFailed t) ∧
    (∃ t, exec (.input (pos 3) .position .position) s = .next t ∧ NotFailed t) ∧ ((2 : Nat) : Int) ≠ destAddress (pos 3) :=
  ⟨⟨_, rfl, fun e h => by cases h⟩, ⟨_, rfl, fun e h => by cases h⟩, ⟨_, rfl, fun e h => by cases h⟩,
    ⟨_, rfl, fun e h => by cases h⟩, ⟨_, rfl, fun e h => by cases h⟩, by decide⟩

theorem witness_NonStoringInstructionsFrame :
    let s := boot [1, 2, 3, 4] none
    (∃ t, exec (.jt (pos 0) (imm 1) .position) s = .next t ∧ NotFailed t) ∧
    (∃ t, exec (.jf (pos 0) (imm 1) .position) s = .next t ∧ NotFailed t) ∧
    (∃ t, exec (.out (pos 3) .position .position) s = .next t ∧ readable s (pos 3)) ∧
    (∃ t, exec (.out (pos 4) .position .position) s = .next t ∧ ¬ readable s (pos 4)) ∧
    (∃ t, exec (.hlt .position .position .position) s = .next t) :=
  ⟨⟨_, rfl, fun e h => by cases h⟩, ⟨_, rfl, fun e h => by cases h⟩, ⟨_, rfl, by decide⟩, ⟨_, rfl, by decide⟩, ⟨_, rfl⟩⟩

/-- Each way the destination can coincide: operand 1's address and word, operand 2's, the header, the last word; and a
source's address outside the instruction. -/
theorem witness_SourcesAreReadBeforeTheWrite :
    (∃ s t : State, s.status = .running ∧ fetchDecode s = .ok (.add (pos 1) (pos 2) (pos 1)) ∧ step s = .next t ∧
      NotFailed t ∧ (pos 1).raw = s.ptr + 1) ∧
    (∃ s t : State, s.status = .running ∧ fetchDecode s = .ok (.add (pos 1) (pos 2) (pos 2)) ∧ step s = .next t ∧
      NotFailed t ∧ (pos 2).raw = s.ptr + 2) ∧
    (∃ s t : State, s.status = .running ∧ fetchDecode s = .ok (.add (pos 1) (pos 2) (pos 0)) ∧ step s = .next t ∧
      NotFailed t ∧ (pos 0).raw = s.ptr) ∧
    (∃ s t : State, s.status = .running ∧ fetchDecode s = .ok (.add (pos 1) (pos 2) (pos 3)) ∧ step s = .next t ∧
      NotFailed t ∧ (pos 3).raw = s.ptr + 3) ∧
    (∃ s t : State, s.status = .running ∧ fetchDecode s = .ok (.add (pos 4) (imm 2) (pos 4)) ∧ step s = .next t ∧
      NotFailed t) :=
  ⟨⟨boot [1, 1, 2, 1] none, _, rfl, by decide, rfl, (fun e h => by cases h), by decide⟩,
    ⟨boot [1, 1, 2, 2] none, _, rfl, by decide, rfl, (fun e h => by cases h), by decide⟩,
    ⟨boot [1, 1, 2, 0] none, _, rfl, by decide, rfl, (fun e h => by cases h), by decide⟩,
    ⟨boot [1, 1, 2, 3] none, _, rfl, by decide, rfl, (fun e h => by cases h), by decide⟩,
    ⟨boot [1001, 4, 2, 4, 5] none, _, rfl, by decide, rfl, fun e h => by cases h⟩⟩

theorem witness_JumpOutsideMemoryFailsAtNextFetch :
    let s := boot [1105, 1, 3] none
    s.status = .running ∧ readable s (imm 1) ∧ readable s (imm 3) ∧ operandValue s (imm 1) ≠ 0 ∧
      operandValue s (imm 0) = 0 ∧ ¬ s.inBounds (operandValue s (imm 3)) ∧ ¬ s.inBounds (operandValue s (imm (-1))) := by
  decide

theorem witness_TakenJumpToItselfHangs :
    (let s := boot [1105, 1, 0] none
     s.status = .running ∧ fetchDecode s = .ok (.jt (imm 1) (imm 0) .position) ∧ operandValue s (imm 1) ≠ 0 ∧
       readable s (imm 1) ∧ readable s (imm 0) ∧ operandValue s (imm 0) = s.ptr) ∧
    (let s := boot [1106, 0, 0] none
     s.status = .running ∧ fetchDecode s = .ok (.jf (imm 0) (imm 0) .position) ∧ operandValue s (imm 0) = 0 ∧
       readable s (imm 0) ∧ operandValue s (imm 0) = s.ptr) := by decide

theorem witness_RunLoopStopsAtFirstTerminalState :
    ∃ s t : State, runFor 1 s = .next t ∧ t.status ≠ .running := ⟨boot [99] none, _, rfl, by decide⟩

/-- A run that is still `Running` after two steps. -/
theorem witness_RunLoopFollowsSteps :
    (∃ s t : State, s.status = .running ∧ step s = .next t) ∧
      ∃ s t : State, runFor 2 s = .next t ∧ t.status = .running ∧ t.ptr = 4 :=
  ⟨⟨boot [104, 1, 99] none, _, rfl, rfl⟩, boot [104, 1, 104, 2, 99] none, _, rfl, rfl, rfl⟩

/-- A state that satisfies the invariant in each of the three statuses. -/
theorem witness_RunResultByStatus (st : Status) : State.Inv { boot [99] none with status := st } where
  config := by change Config.specValues.wf; decide
  length := by change 1 ≤ 2147483648; decide
  memWf := by change Memory.wf [(0, 99)]; decide
  memBelow := by change ∀ x ∈ ([(0, 99)] : Memory), x.1 < 1; decide
  memRange := by change ∀ x ∈ ([(0, 99)] : Memory), inWordRange 32 x.2; decide
  latch := by change ∀ v ∈ (none : Option Word), inWordRange 32 v; decide
  log := by change ∀ v ∈ ([] : List Word), inWordRange 32 v; decide
  ptrRange := by change -wordHalf 32 ≤ 0 ∧ 0 ≤ wordHalf 32; decide
  haltedNonempty := fun _ => le_refl 1
  minimalSilent := fun _ => rfl

/-- A state that satisfies the invariant, at both ends of its memory of one word. -/
theorem witness_IdiomsDoWhatTheyName :
    ∃ s : State, s.Inv ∧ s.inBounds 0 ∧ inWordRange s.config.W (-2147483648) ∧
      s.mem.read (0 : Int).toNat ≠ -wordHalf s.config.W :=
  ⟨{ boot [99] none with status := .running }, witness_RunResultByStatus .running, by decide⟩

end Sys2Proof.Tests
end

section
/-! PROOFS. Mode digits a header does not have (30_encoding.md R58). -/

namespace Sys2Proof

/-- A number below `10 ^ k` has no digit of weight `10 ^ k`. -/
theorem digit_eq_zero_of_lt {n k : Nat} (h : n < 10 ^ k) : digit n k = 0 := by
  rw [digit, Nat.div_eq_of_lt h, Nat.zero_mod]

@[simp] theorem Mode.digitOf_eq_zero {m : Mode} : m.digitOf = 0 ↔ m = .position := by
  cases m <;> simp [Mode.digitOf]

/-- R58 for one slot: a slot whose digit has a weight above the header is Position. -/
theorem Mode.eq_position_of_header_lt {h : Int} {k : Nat} {m : Mode} (hm : digit h.toNat k = m.digitOf)
    (hlt : h.toNat < 10 ^ k) : m = .position :=
  Mode.digitOf_eq_zero.1 (hm ▸ digit_eq_zero_of_lt hlt)

/-- The mode digits of a header that decodes are those of the instruction's three slots. -/
theorem decode_modeDigits {c : Config} {h : Int} {ws rest : List Word} {i : Instr}
    (hdec : decode c (h :: ws) = .ok (i, rest)) :
    digit h.toNat 2 = i.modes.1.digitOf ∧ digit h.toNat 3 = i.modes.2.1.digitOf ∧
      digit h.toNat 4 = i.modes.2.2.digitOf := by
  obtain ⟨_, _, heq, hhd, _⟩ := decode_ok hdec
  cases heq
  obtain ⟨_, ⟨h1, _⟩, ⟨h2, _⟩, ⟨h3, _⟩, _⟩ := decodeHeader_ok.1 hhd
  exact ⟨h1, h2, h3⟩

/-- Settles O9: each slot's digit is the header's, and a digit of a weight above the header is 0. -/
theorem missingModeDigitsArePosition : Obligations.MissingModeDigitsArePosition := by
  intro c h ws rest i _ hdec
  obtain ⟨h1, h2, h3⟩ := decode_modeDigits hdec
  refine ⟨fun hlt => ?_, fun hlt => ?_, fun hlt => ?_⟩
  · exact Mode.eq_position_of_header_lt h1 (by omega)
  · exact Mode.eq_position_of_header_lt h2 (by omega)
  · exact Mode.eq_position_of_header_lt h3 (by omega)

end Sys2Proof
end

section
/-! PROOFS. The opcode lookup, the memory-end check and the mode resolver (40_execute_cycle.md R82, R83, R86). -/

namespace Sys2Proof

open Machine Claims

/-- `LegalModes(PROFILE)` (R76) is what the digit check accepts. -/
theorem decodeMode_of_legalDigit {p : Profile} {d : Nat} (h : LegalDigit p d) : ∃ m, decodeMode p d = .ok m := by
  obtain rfl | ⟨rfl, rfl⟩ := h
  · exact ⟨.position, by cases p <;> rfl⟩
  · exact ⟨.immediate, rfl⟩

/-- `Opcodes(PROFILE)` (R76) is the set of the codes of the opcodes that the profile allows. -/
theorem legalField_iff {p : Profile} {f : Nat} :
    LegalField p f ↔ ∃ op : Opcode, f = op.code ∧ p.allowsOpcode op = true := by
  constructor
  · rintro (rfl | rfl | rfl | ⟨rfl, h3, h8⟩)
    · exact ⟨.add, rfl, by cases p <;> rfl⟩
    · exact ⟨.mul, rfl, by cases p <;> rfl⟩
    · exact ⟨.hlt, rfl, by cases p <;> rfl⟩
    · interval_cases f
      exacts [⟨.input, rfl, rfl⟩, ⟨.out, rfl, rfl⟩, ⟨.jt, rfl, rfl⟩, ⟨.jf, rfl, rfl⟩, ⟨.lt, rfl, rfl⟩,
        ⟨.eq, rfl, rfl⟩]
  · rintro ⟨op, rfl, hp⟩
    revert hp
    cases p <;> cases op <;> decide

@[simp] theorem arityOf_code (op : Opcode) : arityOf op.code = op.arity := by cases op <;> rfl

/-- R82 for the lookup: outside the profile's set it raises the field. -/
theorem decodeOpcode_of_not_legalField {p : Profile} {f : Nat} (h : ¬ LegalField p f) :
    decodeOpcode p f = .error (.unknownOpcode f) := by
  cases hr : decodeOpcode p f with
  | ok op => exact absurd (legalField_iff.2 ⟨op, decodeOpcode_ok.1 hr⟩) h
  | error e => rw [decodeOpcode_error hr]

theorem decode_of_header_error {c : Config} {h : Int} {ws : List Word} {e : Error}
    (hh : decodeHeader c h = .error e) : decode c (h :: ws) = .error e := by
  simp [decode, bind, Except.bind, hh]

/-- R83 for the decoder: too few words after a header that decodes. -/
theorem decode_of_short_operands {c : Config} {h : Int} {ws : List Word} {hd : Header}
    (hh : decodeHeader c h = .ok hd) (hlen : ws.length < hd.opcode.arity) :
    decode c (h :: ws) = .error .unexpectedEndOfInput := by
  simp [decode, bind, Except.bind, hh, takeOperands_short hlen]

namespace Machine

theorem step_of_decode_error {s : State} {e : Error} (hrun : s.status = .running)
    (hdec : decode s.config (fetchWindow s) = .error e) : step s = failsWith s e := by
  have hfd : fetchDecode s = .error e := by rw [fetchDecode, hdec]
  rw [step_running hrun, hfd]
  rfl

/-- Past the sign and the mode digits, only the opcode lookup can reject the header (R76). -/
theorem decodeHeader_of_legalDigits {s : State} (h0 : 0 ≤ headerAt s) (hdig : LegalDigits s) :
    ∃ m1 m2 m3, decodeHeader s.config (headerAt s) =
      (decodeOpcode s.config.profile (fieldAt s)).map (⟨·, m1, m2, m3⟩) := by
  obtain ⟨hd1, hd2, hd3⟩ := hdig
  obtain ⟨m1, h1⟩ := decodeMode_of_legalDigit hd1
  obtain ⟨m2, h2⟩ := decodeMode_of_legalDigit hd2
  obtain ⟨m3, h3⟩ := decodeMode_of_legalDigit hd3
  refine ⟨m1, m2, m3, ?_⟩
  rw [decodeHeader, if_neg h0.not_gt]
  simp only [digit, h1, h2, h3, bind, Except.bind]
  cases decodeOpcode s.config.profile (fieldAt s) <;> rfl

/-- Settles O17: the sign and the digits pass, and the lookup raises the field. -/
theorem unknownOpcodeFieldFails : Obligations.UnknownOpcodeFieldFails := by
  rintro s ⟨hrun, hp0, hpN, h0⟩ hdig hfield
  obtain ⟨m1, m2, m3, hhd⟩ := decodeHeader_of_legalDigits h0 hdig
  rw [decodeOpcode_of_not_legalField hfield] at hhd
  apply step_of_decode_error hrun
  rw [fetchWindow_cons ⟨hp0, hpN⟩]
  exact decode_of_header_error hhd

/-- The operand words in the window are fewer than `k` where memory ends before `ptr + k` (R83). -/
theorem operandWindow_length_lt {s : State} {k : Nat} (hk : k ≤ 3) (hpN : s.ptr < s.N)
    (hend : (s.N : Int) - 1 < s.ptr + k) : (fetchWords s (s.ptr + 1) 3).length < k := by
  by_contra hlen
  have hin := (fetchWords_length (s := s) (a := s.ptr + 1) (by omega) hk).1 (not_lt.1 hlen)
  omega

/-- Settles O18: the header decodes, so what decides is how many operand words stand below `N`. -/
theorem truncatedInstructionFails : Obligations.TruncatedInstructionFails := by
  rintro s ⟨hrun, hp0, hpN, h0⟩ hdig hfield
  constructor
  · intro hend
    obtain ⟨m1, m2, m3, hhd⟩ := decodeHeader_of_legalDigits h0 hdig
    obtain ⟨op, hcode, hallow⟩ := legalField_iff.1 hfield
    rw [decodeOpcode_ok.2 ⟨hcode, hallow⟩] at hhd
    rw [hcode, arityOf_code] at hend
    have harity : op.arity ≤ 3 := by cases op <;> decide
    apply step_of_decode_error hrun
    rw [fetchWindow_cons ⟨hp0, hpN⟩]
    exact decode_of_short_operands hhd (operandWindow_length_lt harity hpN hend)
  · intro hfit j h1 hj
    exact fetchWord_ok ⟨by omega, by omega⟩

/-- Settles O37: the resolver's two arms, and `destAddress` does not look at the mode. -/
theorem modeResolver : Obligations.ModeResolver := fun _ _ => ⟨rfl, rfl, fun _ => rfl⟩

end Machine

end Sys2Proof
end

section
/-! PROOFS. add and mul (41_arithmetic.md R95, R96): the canonical encoding, the decode exceptions in their order, and
the execute phase under each overflow policy. -/

namespace Sys2Proof

open Machine Claims

/-! ### The canonical encoding -/

theorem Mode.digitOf_eq_digitFor (m : Mode) : m.digitOf = digitFor m := by cases m <;> rfl

@[simp] theorem Mode.digitOf_eq_one {m : Mode} : m.digitOf = 1 ↔ m = .immediate := by
  cases m <;> simp [Mode.digitOf]

/-- R66: the canonical header with its digits written out, then the raw operands. -/
theorem encode_eq_digits (i : Instr) :
    encode i = ((i.opcode.code + 100 * digitFor i.modes.1 + 1000 * digitFor i.modes.2.1 +
      10000 * digitFor i.modes.2.2 : Nat) : Int) :: i.rawOperands := by
  simp only [encode, Instr.header, Mode.digitOf_eq_digitFor]

/-! ### The decoder's checks -/

theorem decodeMode_of_not_legalDigit {p : Profile} {d : Nat} (h : ¬ LegalDigit p d) :
    decodeMode p d = .error (.unrecognisedParameterMode d) := by
  cases hr : decodeMode p d with
  | error e => rw [decodeMode_error hr]
  | ok m =>
    obtain ⟨rfl, hallow⟩ := decodeMode_ok.1 hr
    refine absurd ?_ h
    cases m with
    | position => exact .inl rfl
    | immediate => cases p with
      | full => exact .inr ⟨rfl, rfl⟩
      | minimal => cases hallow

theorem takeOperands_of_arity_le {hd : Header} {ws : List Word} (h : hd.opcode.arity ≤ ws.length) :
    ∃ i rest, takeOperands hd ws = .ok (i, rest) := by
  cases hr : takeOperands hd ws with
  | ok r => exact ⟨r.1, r.2, rfl⟩
  | error e => exact absurd (takeOperands_error hr).2 h.not_gt

/-- The opcode's destination slot (R76) is the instruction's, and the header's digit there is the destination's mode. -/
theorem destination_of_destSlotIs {i : Instr} {j n : Nat} (hslot : DestSlotIs i.opcode.code j)
    (h1 : digit n 2 = i.modes.1.digitOf) (h3 : digit n 4 = i.modes.2.2.digitOf) :
    ∃ d, i.destination = some (j, d) ∧ digit n (j + 1) = d.mode.digitOf := by
  cases i with
  | add a b d | mul a b d | lt a b d | eq a b d =>
    obtain rfl : j = 3 := by simpa [DestSlotIs, Instr.opcode, Opcode.code] using hslot
    exact ⟨d, rfl, h3⟩
  | input d x2 x3 =>
    obtain rfl : j = 1 := by simpa [DestSlotIs, Instr.opcode, Opcode.code] using hslot
    exact ⟨d, rfl, h1⟩
  | out | jt | jf | hlt => simp [DestSlotIs, Instr.opcode, Opcode.code] at hslot

theorem checkDestination_immediate {c : Config} {i : Instr} {j : Nat} {d : Operand} (hc : c.destImmediate = .reject)
    (hd : i.destination = some (j, d)) (hm : d.mode = .immediate) :
    checkDestination c i = .error (.immediateDestination j) := by
  simp [checkDestination, hc, hd, hm]

theorem decode_of_destination_error {c : Config} {h : Int} {ws : List Word} {hd : Header} {r : Instr × List Word}
    {e : Error} (h1 : decodeHeader c h = .ok hd) (h2 : takeOperands hd ws = .ok r)
    (h3 : checkDestination c r.1 = .error e) : decode c (h :: ws) = .error e := by
  simp [decode, bind, Except.bind, h1, h2, h3]

namespace Machine

/-! ### The decode phase of a step -/

/-- R80: the digits are checked in slot order, so the first illegal one rejects the header. -/
theorem decodeHeader_of_firstIllegalDigit {s : State} {j : Nat} (h0 : 0 ≤ headerAt s) (h1 : 1 ≤ j) (h3 : j ≤ 3)
    (hill : ¬ LegalDigit s.config.profile (modeDigitAt s j))
    (hlegal : ∀ k, 1 ≤ k → k < j → LegalDigit s.config.profile (modeDigitAt s k)) :
    decodeHeader s.config (headerAt s) = .error (.unrecognisedParameterMode (modeDigitAt s j)) := by
  rw [decodeHeader, if_neg h0.not_gt]
  have hj := decodeMode_of_not_legalDigit hill
  interval_cases j
  · simp only [digit, hj, bind, Except.bind]
  · obtain ⟨m1, hm1⟩ := decodeMode_of_legalDigit (hlegal 1 (by decide) (by decide))
    simp only [digit, hm1, hj, bind, Except.bind]
  · obtain ⟨m1, hm1⟩ := decodeMode_of_legalDigit (hlegal 1 (by decide) (by decide))
    obtain ⟨m2, hm2⟩ := decodeMode_of_legalDigit (hlegal 2 (by decide) (by decide))
    simp only [digit, hm1, hm2, hj, bind, Except.bind]

theorem step_of_firstIllegalDigit {s : State} {j : Nat} (hs : Fetches s) (h1 : 1 ≤ j) (h3 : j ≤ 3)
    (hill : ¬ LegalDigit s.config.profile (modeDigitAt s j))
    (hlegal : ∀ k, 1 ≤ k → k < j → LegalDigit s.config.profile (modeDigitAt s k)) :
    step s = failsWith s (.unrecognisedParameterMode (modeDigitAt s j)) := by
  obtain ⟨hrun, hp0, hpN, h0⟩ := hs
  apply step_of_decode_error hrun
  rw [fetchWindow_cons ⟨hp0, hpN⟩]
  exact decode_of_header_error (decodeHeader_of_firstIllegalDigit h0 h1 h3 hill hlegal)

/-- Past the checks of R80, R82 and R83 the words at `ptr` form an instruction; only R84 is left to check. -/
theorem takeOperands_of_fits {s : State} (h0 : 0 ≤ headerAt s) (hp0 : 0 ≤ s.ptr) (hdig : LegalDigits s)
    (hfield : LegalField s.config.profile (fieldAt s)) (hfit : s.ptr + arityOf (fieldAt s) ≤ (s.N : Int) - 1) :
    ∃ hd i rest, decodeHeader s.config (headerAt s) = .ok hd ∧
      takeOperands hd (fetchWords s (s.ptr + 1) 3) = .ok (i, rest) := by
  obtain ⟨m1, m2, m3, hhd⟩ := decodeHeader_of_legalDigits h0 hdig
  obtain ⟨op, hcode, hallow⟩ := legalField_iff.1 hfield
  rw [decodeOpcode_ok.2 ⟨hcode, hallow⟩] at hhd
  rw [hcode, arityOf_code] at hfit
  have hlen : op.arity ≤ (fetchWords s (s.ptr + 1) 3).length := by
    have harity : op.arity ≤ 3 := by cases op <;> decide
    rcases Nat.eq_zero_or_pos op.arity with hz | hpos
    · omega
    · exact (fetchWords_length hpos harity).2 ⟨by omega, by omega⟩
  obtain ⟨i, rest, htake⟩ := takeOperands_of_arity_le (hd := ⟨op, m1, m2, m3⟩) hlen
  exact ⟨_, i, rest, hhd, htake⟩

theorem step_of_immediateDestination {s : State} {j : Nat} (hs : Fetches s) (hdig : LegalDigits s)
    (hfield : LegalField s.config.profile (fieldAt s)) (hfit : s.ptr + arityOf (fieldAt s) ≤ (s.N : Int) - 1)
    (hreject : s.config.destImmediate = .reject) (hslot : DestSlotIs (fieldAt s) j) (himm : modeDigitAt s j = 1) :
    step s = failsWith s (.immediateDestination j) := by
  obtain ⟨hrun, hp0, hpN, h0⟩ := hs
  obtain ⟨hd, i, rest, hhd, htake⟩ := takeOperands_of_fits h0 hp0 hdig hfield hfit
  obtain ⟨hop, hmodes, -⟩ := takeOperands_ok htake
  obtain ⟨-, ⟨h1, -⟩, -, ⟨h3, -⟩, ⟨hcode, -⟩⟩ := decodeHeader_ok.1 hhd
  obtain ⟨d, hdest, hdigit⟩ := destination_of_destSlotIs (i := i) (n := (headerAt s).toNat)
    (by rwa [hop, ← hcode]) (by rw [hmodes, h1]) (by rw [hmodes, h3])
  have hm : d.mode = .immediate := Mode.digitOf_eq_one.1 (hdigit.symm.trans himm)
  apply step_of_decode_error hrun
  rw [fetchWindow_cons ⟨hp0, hpN⟩]
  exact decode_of_destination_error hhd htake (checkDestination_immediate hreject hdest hm)

/-- The decode exceptions (R76) are the same for every opcode field. -/
theorem decodeExceptions (f : Nat) : DecodeExceptions f := by
  rintro s hs rfl
  refine ⟨fun j h1 h3 hill hlegal => step_of_firstIllegalDigit hs h1 h3 hill hlegal, fun hdig hfield => ?_,
    fun hdig hfield hfit hreject j hslot himm => step_of_immediateDestination hs hdig hfield hfit hreject hslot himm⟩
  exact (truncatedInstructionFails s hs hdig hfield).1

/-! ### The execute phase -/

section
variable {c : Config} {v : Int}

theorem narrow_wrap (h : c.overflow = .wrap) : narrow c v = .ok (wrapW c.W v) := by
  rw [narrow, h]

theorem narrow_fault_inRange (h : c.overflow = .fault) (hv : inWordRange c.W v) : narrow c v = .ok v := by
  simp only [narrow, h, if_pos hv]

theorem narrow_fault_overflow (h : c.overflow = .fault) (hv : ¬ inWordRange c.W v) :
    narrow c v = .error .arithmeticOverflow := by
  simp only [narrow, h, if_neg hv]

/-- Only `fault` on a result outside the word range raises (R93, R94). -/
theorem narrow_isOk (h : c.overflow = .wrap ∨ inWordRange c.W v) : ∃ r, narrow c v = .ok r := by
  cases hc : c.overflow with
  | wrap => exact ⟨_, narrow_wrap hc⟩
  | fault => exact ⟨v, narrow_fault_inRange hc (h.resolve_left (by simp [hc]))⟩

end

/-- A Full instruction that completes writes its result and moves `ptr` past its four words. -/
theorem commit_fullExecute_ok {f : Config → Int → Int → Except Error Word} {a b d : Operand} {s : State} {r : Int}
    (ha : readable s a) (hb : readable s b) (hf : f s.config (operandValue s a) (operandValue s b) = .ok r)
    (hd : s.inBounds d.raw) :
    commit s (fullExecute f a b d s) = .next { s with mem := s.mem.write d.raw.toNat r, ptr := s.ptr + 4 } := by
  rw [fullExecute_ok ha hb hf hd, commit_ok, add_assoc]
  rfl

/-- A Full instruction that narrows an exact operation `g` by the overflow policy executes by the rule of R95. -/
theorem arithmeticExecutes {i : Operand → Operand → Operand → Instr} {g : Int → Int → Int}
    (hexec : ∀ a b d s, exec (i a b d) s = commit s (fullExecute (fun c x y => narrow c (g x y)) a b d s)) :
    ArithmeticExecutes i g := by
  intro s a b d
  rw [hexec]
  refine ⟨fun ha => ?_, fun ha hb => ?_, fun ha hb hc hv => ?_, fun ha hb hv hd => ?_, fun ha hb hc hd => ?_,
    fun ha hb hc hv hd => ?_⟩
  · rw [fullExecute_error_first ha, commit_error, State.fail]
  · rw [fullExecute_error_second ha hb, commit_error, State.fail]
  · rw [fullExecute_error_alu ha hb (narrow_fault_overflow hc hv), commit_error, State.fail]
  · obtain ⟨r, hr⟩ := narrow_isOk hv
    rw [fullExecute_error_destination ha hb hr hd, commit_error, State.fail]
  · exact commit_fullExecute_ok ha hb (narrow_wrap hc) hd
  · exact commit_fullExecute_ok ha hb (narrow_fault_inRange hc hv) hd

/-- Settles O41: add narrows the exact sum. -/
theorem addFollowsItsRule : Obligations.AddFollowsItsRule :=
  ⟨fun a b d => encode_eq_digits (.add a b d), decodeExceptions 1, arithmeticExecutes fun _ _ _ _ => rfl⟩

/-- Settles O42: mul narrows the exact product. -/
theorem mulFollowsItsRule : Obligations.MulFollowsItsRule :=
  ⟨fun a b d => encode_eq_digits (.mul a b d), decodeExceptions 2, arithmeticExecutes fun _ _ _ _ => rfl⟩

end Machine

end Sys2Proof
end

section
/-! PROOFS. out (42_io.md R98): what its execute phase answers for an operand that resolves and for one that does
not. -/

namespace Sys2Proof

open Machine Claims

namespace Machine

section
variable {s : State} {a : Operand}

/-- R89, R98: an operand outside memory fails the step, and nothing is emitted. -/
theorem execOut_error (h : ¬ readable s a) : execOut a s = failsWith s (.outOfBounds a.raw) := by
  rw [execOut, resolve_error h]
  exact commit_error s _

theorem execOut_ok (h : readable s a) : execOut a s = .next ((s.emit (operandValue s a)).advance 1) := by
  rw [execOut, resolve_ok h]
  exact commit_ok s _

end

theorem State.advance_one_eq (s : State) : s.advance 1 = { s with ptr := s.ptr + 2 } := by
  rw [State.advance, add_assoc]
  rfl

/-- Settles O44: the operand resolves or the step fails; the encoding and the decode exceptions are those of every
opcode. -/
theorem outputFollowsItsRule : Obligations.OutputFollowsItsRule := by
  refine ⟨fun a x2 x3 => encode_eq_digits (.out a x2 x3), decodeExceptions 4, fun s a x2 x3 =>
    ⟨fun ha => execOut_error ha, fun ha => ?_⟩⟩
  calc exec (.out a x2 x3) s
    _ = .next ((s.emit (operandValue s a)).advance 1) := execOut_ok ha
    _ = .next { s with outLog := s.outLog ++ [operandValue s a], ptr := s.ptr + 2 } := by
      rw [State.advance_one_eq, State.emit]

end Machine

end Sys2Proof
end

section
/-! PROOFS. jt and jf (43_jumps.md R101, R102): both jumps share one execute phase and differ in the test on the
condition's value. -/

namespace Sys2Proof

open Machine Claims

namespace Machine

theorem testNonzero_eq_true {x : Int} : testNonzero x = true ↔ x ≠ 0 := bne_iff_ne

theorem testZero_eq_true {x : Int} : testZero x = true ↔ x = 0 := beq_iff_eq

theorem State.advance_two_eq (s : State) : s.advance 2 = { s with ptr := s.ptr + 3 } := by
  rw [State.advance, add_assoc]
  rfl

/-- A jump not taken leaves `ptr` past its three words; its target matters only under `JUMP_TARGET_EAGER` (R100). -/
theorem commit_jumpExecute_notTaken {test : Int → Bool} {c t : Operand} {s : State} (hc : readable s c)
    (hk : test (operandValue s c) = false) (ht : s.config.jumpTargetEager = true → readable s t) :
    commit s (jumpExecute test c t s) = .next { s with ptr := s.ptr + 3 } := by
  rw [jumpExecute_notTaken hc hk ht, commit_ok, State.advance_two_eq]

/-- An instruction that runs the jumps' execute phase with a test deciding `taken` executes by the rule of R101. -/
theorem jumpExecutes {i : Operand → Operand → Mode → Instr} {test : Int → Bool} {taken : Int → Prop}
    (hexec : ∀ c t x3 s, exec (i c t x3) s = commit s (jumpExecute test c t s))
    (htest : ∀ {x}, test x = true ↔ taken x) : JumpExecutes i taken := by
  intro s c t x3
  rw [hexec]
  have hfalse (h : ¬ taken (operandValue s c)) : test (operandValue s c) = false :=
    Bool.eq_false_iff.2 (mt htest.1 h)
  refine ⟨fun hc => ?_, fun hc hk ht => ?_, fun hc hk ht => ?_, fun hc hk he => ?_, fun hc hk _ ht => ?_⟩
  · rw [jumpExecute_error_condition hc, commit_error, State.fail]
  · rw [jumpExecute_error_target hc (hk.imp_left htest.2) ht, commit_error, State.fail]
  · rw [jumpExecute_taken hc (htest.2 hk) ht, commit_ok, State.jumpTo]
  · exact commit_jumpExecute_notTaken hc (hfalse hk) (by simp [he])
  · exact commit_jumpExecute_notTaken hc (hfalse hk) fun _ => ht

/-- Settles O45: jt is the shared jump with the test for a nonzero word. -/
theorem jumpIfTrueFollowsItsRule : Obligations.JumpIfTrueFollowsItsRule :=
  ⟨fun c t x3 => encode_eq_digits (.jt c t x3), decodeExceptions 5,
    jumpExecutes (fun _ _ _ _ => rfl) testNonzero_eq_true⟩

/-- Settles O46: jf is the shared jump with the test for the word 0. -/
theorem jumpIfFalseFollowsItsRule : Obligations.JumpIfFalseFollowsItsRule :=
  ⟨fun c t x3 => encode_eq_digits (.jf c t x3), decodeExceptions 6,
    jumpExecutes (fun _ _ _ _ => rfl) testZero_eq_true⟩

end Machine

end Sys2Proof
end

section
/-! PROOFS. lt and eq (44_compare.md R104, R105): the Full instructions whose ALU operation raises no error, so one
execute phase serves both. -/

namespace Sys2Proof

open Machine Claims

namespace Machine

/-- A Full instruction whose ALU operation answers the word `r x y` under every configuration executes by the rule of
R104: only its three operands can fail. -/
theorem comparisonExecutes {i : Operand → Operand → Operand → Instr} {r : Int → Int → Int}
    (hexec : ∀ a b d s, exec (i a b d) s = commit s (fullExecute (fun _ x y => .ok (r x y)) a b d s)) :
    ComparisonExecutes i r := by
  intro s a b d
  rw [hexec]
  refine ⟨fun ha => ?_, fun ha hb => ?_, fun ha hb hd => ?_, fun ha hb hd => ?_⟩
  · rw [fullExecute_error_first ha, commit_error, State.fail]
  · rw [fullExecute_error_second ha hb, commit_error, State.fail]
  · rw [fullExecute_error_destination ha hb rfl hd, commit_error, State.fail]
  · exact commit_fullExecute_ok ha hb rfl hd

/-- Settles O47: lt answers 1 or 0 by the signed order. -/
theorem lessThanFollowsItsRule : Obligations.LessThanFollowsItsRule :=
  ⟨fun a b d => encode_eq_digits (.lt a b d), decodeExceptions 7, comparisonExecutes fun _ _ _ _ => rfl⟩

/-- Settles O48: eq answers 1 or 0 by equality. -/
theorem equalsFollowsItsRule : Obligations.EqualsFollowsItsRule :=
  ⟨fun a b d => encode_eq_digits (.eq a b d), decodeExceptions 8, comparisonExecutes fun _ _ _ _ => rfl⟩

end Machine

end Sys2Proof
end

section
/-! PROOFS. The decoder and the encoder are inverse to each other, and the decoder of profile minimal is a part of the
one of profile full (30_encoding.md R55 to R66, 40_execute_cycle.md R76 to R85). -/

namespace Sys2Proof

open Machine Claims

/-! ### An instruction and its encoding -/

/-- The converse of `decode_ok`: a header that says what the instruction is, its operands and an allowed destination. -/
theorem decode_of_instr {c : Config} {hw : Int} {i : Instr} (rest : List Word)
    (hhd : decodeHeader c hw = .ok ⟨i.opcode, i.modes.1, i.modes.2.1, i.modes.2.2⟩)
    (hdest : i.destinationAllowed c = true) : decode c (hw :: (i.rawOperands ++ rest)) = .ok (i, rest) :=
  decode_of_parts hhd (takeOperands_of_instr i rest) (checkDestination_ok.2 hdest)

theorem Instr.wf_iff {c : Config} {i : Instr} :
    i.wf c = true ↔ c.profile.allowsOpcode i.opcode = true ∧ i.modesAllowed c.profile = true ∧
      i.destinationAllowed c = true ∧ ∀ p ∈ i.rawOperands, inWordRange c.W p := by
  simp only [Instr.wf, Instr.operandsInRange, Bool.and_eq_true, List.all_eq_true, decide_eq_true_eq, and_assoc]

theorem Instr.modesAllowed_iff {p : Profile} {i : Instr} :
    i.modesAllowed p = true ↔ p.allowsMode i.modes.1 = true ∧ p.allowsMode i.modes.2.1 = true ∧
      p.allowsMode i.modes.2.2 = true := by
  simp [Instr.modesAllowed, and_assoc]

/-- Settles O6: the canonical header's fields are the instruction's, and the profile admits each of them. -/
theorem decodeOfEncodeIsIdentity : Obligations.DecodeOfEncodeIsIdentity := by
  intro c i rest hwf
  obtain ⟨hop, hmodes, hdest, -⟩ := Instr.wf_iff.1 hwf
  obtain ⟨hm1, hm2, hm3⟩ := Instr.modesAllowed_iff.1 hmodes
  obtain ⟨hfield, hd1, hd2, hd3⟩ := i.header_fields
  exact decode_of_instr rest
    (decodeHeader_ok.2 ⟨Int.natCast_nonneg _, ⟨hd1, hm1⟩, ⟨hd2, hm2⟩, ⟨hd3, hm3⟩, hfield, hop⟩) hdest

/-- R66 read backwards: the canonical header is the header without its digits of weight `10^5` and above. -/
theorem Instr.header_eq_mod {i : Instr} {n : Nat} (hfield : n % 100 = i.opcode.code)
    (h1 : digit n 2 = i.modes.1.digitOf) (h2 : digit n 3 = i.modes.2.1.digitOf)
    (h3 : digit n 4 = i.modes.2.2.digitOf) : i.header = n % 100000 := by
  rw [Instr.header, ← hfield, ← h1, ← h2, ← h3]
  simp only [digit]
  omega

/-- Settles O7: the header that decodes has the fields of the canonical one. -/
theorem decodedWordsAreTheEncoding : Obligations.DecodedWordsAreTheEncoding := by
  intro c ws rest i hdec
  obtain ⟨h, ops, rfl, hhd, rfl, hdest⟩ := decode_ok hdec
  obtain ⟨h0, ⟨hd1, hm1⟩, ⟨hd2, hm2⟩, ⟨hd3, hm3⟩, hfield, hop⟩ := decodeHeader_ok.1 hhd
  have hheader := Instr.header_eq_mod hfield hd1 hd2 hd3
  refine ⟨h, _, rfl, h0, ?_, fun hrange =>
    Instr.wf_iff.2 ⟨hop, Instr.modesAllowed_iff.2 ⟨hm1, hm2, hm3⟩, hdest, hrange⟩⟩
  have hmod : ((h.toNat % 100000 : Nat) : Int) = h % 100000 := by omega
  rw [encode, List.cons_append, hheader, hmod]

/-! ### The fields of a header -/

/-- D7 for one digit: those of weight `10^5` and above do not reach the digits the decoder extracts. -/
theorem digit_mod {n k : Nat} (hk : k ≤ 4) : digit (n % 100000) k = digit n k := by
  simp only [digit]
  interval_cases k <;> omega

/-- Settles O8: the sign, the three digits and the opcode field are the same, so the header's decode is. -/
theorem highHeaderDigitsIgnored : Obligations.HighHeaderDigitsIgnored := by
  intro c h ws h0
  have hnat : (h % 100000).toNat = h.toNat % 100000 := by omega
  have hhd : decodeHeader c h = decodeHeader c (h % 100000) := by
    rw [decodeHeader, decodeHeader, if_neg h0.not_gt, if_neg (by omega), hnat, digit_mod (by decide),
      digit_mod (by decide), digit_mod (by decide), Nat.mod_mod_of_dvd _ (by decide)]
  rw [decode, decode, hhd]

theorem decode_field {c : Config} {h : Int} {ws rest : List Word} {i : Instr}
    (hdec : decode c (h :: ws) = .ok (i, rest)) : h.toNat % 100 = i.opcode.code := by
  obtain ⟨_, _, heq, hhd, -⟩ := decode_ok hdec
  cases heq
  obtain ⟨-, -, -, -, hfield, -⟩ := decodeHeader_ok.1 hhd
  exact hfield

/-- Settles O11: the field is the instruction's code, and the codes differ; the digits are those of the modes. -/
theorem opcodeFieldSelectsInstruction : Obligations.OpcodeFieldSelectsInstruction := by
  intro c h ws rest i hdec
  obtain ⟨h1, h2, h3⟩ := decode_modeDigits hdec
  rw [decode_field hdec, ← Mode.digitOf_eq_digitFor, ← Mode.digitOf_eq_digitFor, ← Mode.digitOf_eq_digitFor,
    ← h1, ← h2, ← h3]
  cases i <;> simp [Instr.opcode, Opcode.code, digit]

/-- Settles O12: nine closed word sequences, evaluated. -/
theorem sampleWordsDecode : Obligations.SampleWordsDecode := by
  unfold Obligations.SampleWordsDecode
  decide

/-! ### The two profiles -/

theorem Profile.minimal_allowsOpcode {op : Opcode} :
    Profile.minimal.allowsOpcode op = true ↔ op = .add ∨ op = .mul ∨ op = .hlt := by
  cases op <;> simp [Profile.allowsOpcode]

theorem Profile.minimal_allowsMode {m : Mode} : Profile.minimal.allowsMode m = true ↔ m = .position := by
  cases m <;> simp [Profile.allowsMode]

/-- Profile full admits every opcode and every mode digit that some profile admits (R3, R76). -/
theorem decodeHeader_full {c : Config} {h : Int} {hd : Header} (hhd : decodeHeader c h = .ok hd) :
    decodeHeader { c with profile := .full } h = .ok hd := by
  obtain ⟨h0, ⟨hd1, -⟩, ⟨hd2, -⟩, ⟨hd3, -⟩, hfield, -⟩ := decodeHeader_ok.1 hhd
  exact decodeHeader_ok.2 ⟨h0, ⟨hd1, rfl⟩, ⟨hd2, rfl⟩, ⟨hd3, rfl⟩, hfield, rfl⟩

/-- Settles O13: the header is checked against fewer opcodes and digits, and nothing else looks at the profile. -/
theorem minimalDecodeIsPartOfFull : Obligations.MinimalDecodeIsPartOfFull := by
  intro c ws rest i hmin hdec
  obtain ⟨h, ops, rfl, hhd, rfl, hdest⟩ := decode_ok hdec
  obtain ⟨-, ⟨-, hm1⟩, ⟨-, hm2⟩, ⟨-, hm3⟩, -, hop⟩ := decodeHeader_ok.1 hhd
  rw [hmin, Profile.minimal_allowsMode] at hm1 hm2 hm3
  rw [hmin, Profile.minimal_allowsOpcode] at hop
  exact ⟨hop, Prod.ext hm1 (Prod.ext hm2 hm3), decode_of_instr rest (decodeHeader_full hhd) hdest⟩

end Sys2Proof
end

section
/-! PROOFS. The access primitives, memory as data, and the ALU (20_memory.md R37 to R41, 41_arithmetic.md R92 to
R94). -/

namespace Sys2Proof

open Machine Claims

namespace Machine

/-! ### The access primitives -/

/-- Settles O33: each primitive is one test of the bounds. -/
theorem accessPrimitivesCheckBounds : Obligations.AccessPrimitivesCheckBounds := by
  refine fun s a v => ⟨fun hb => ⟨memRead_ok hb, fetchWord_ok hb, _, memWrite_ok v hb⟩, fun hout => ?_⟩
  have hb : ¬ s.inBounds a := by rintro ⟨h0, hN⟩; omega
  exact ⟨memRead_error hb, fetchWord_error hb, memWrite_error v hb⟩

/-- All an admitted write does. -/
theorem memWrite_cases {s t : State} {a v : Int} (h : memWrite s a v = .ok t) :
    s.inBounds a ∧ t = { s with mem := s.mem.write a.toNat v } := by
  by_cases hb : s.inBounds a
  · rw [memWrite_ok v hb, Except.ok.injEq] at h
    exact ⟨hb, h.symm⟩
  · rw [memWrite_error v hb] at h
    cases h

/-- A write of another address is not seen at `b`; a negative `b` names no word. -/
theorem read_write_of_ne (m : Memory) {a b : Int} (v : Int) (h0 : 0 ≤ b) (hne : b ≠ a) (ha : 0 ≤ a) :
    (m.write a.toNat v).read b.toNat = m.read b.toNat :=
  Memory.read_write_other m v (by omega)

section
variable {s t : State} {a v : Int}

theorem fetchWord_memWrite_same (h : memWrite s a v = .ok t) : fetchWord t a = .ok v := by
  obtain ⟨hb, rfl⟩ := memWrite_cases h
  rw [fetchWord_ok (by exact hb), Memory.read_write_same]

theorem memRead_memWrite_same (h : memWrite s a v = .ok t) : memRead t a = .ok v := by
  obtain ⟨hb, rfl⟩ := memWrite_cases h
  rw [memRead_ok (by exact hb), Memory.read_write_same]

theorem fetchWord_memWrite_other {b : Int} (h : memWrite s a v = .ok t) (hne : b ≠ a) :
    fetchWord t b = fetchWord s b := by
  obtain ⟨hb, rfl⟩ := memWrite_cases h
  by_cases hs : s.inBounds b
  · rw [fetchWord_ok hs, fetchWord_ok (by exact hs), read_write_of_ne s.mem v hs.1 hne hb.1]
  · rw [fetchWord_error hs, fetchWord_error (by exact hs)]

theorem memRead_memWrite_other {b : Int} (h : memWrite s a v = .ok t) (hne : b ≠ a) :
    memRead t b = memRead s b := by
  obtain ⟨hb, rfl⟩ := memWrite_cases h
  by_cases hs : s.inBounds b
  · rw [memRead_ok hs, memRead_ok (by exact hs), read_write_of_ne s.mem v hs.1 hne hb.1]
  · rw [memRead_error hs, memRead_error (by exact hs)]

end

/-- Settles O34: read after write, for data and for fetches, and once more after a write elsewhere. -/
theorem writeIsSeenByEveryLaterAccess : Obligations.WriteIsSeenByEveryLaterAccess := by
  intro s t a v h
  refine ⟨memRead_memWrite_same h, fetchWord_memWrite_same h,
    fun b hne => ⟨memRead_memWrite_other h hne, fetchWord_memWrite_other h hne⟩, ?_, fun b w u hu hne => ?_⟩
  · obtain ⟨-, rfl⟩ := memWrite_cases h
    rfl
  · rw [fetchWord_memWrite_other hu hne.symm, fetchWord_memWrite_same h]

/-! ### Memory as data -/

/-- An address that no entry lists reads as 0. -/
theorem Memory.read_of_unlisted {m : Memory} {a : Nat} (h : ∀ x ∈ m, x.1 ≠ a) : m.read a = 0 := by
  induction m with
  | nil => rfl
  | cons x m ih =>
    rw [Memory.read_cons, if_neg (h x (by simp)).symm, ih fun y hy => h y (by simp [hy])]

/-- A word that is not 0 is read from an entry. -/
theorem Memory.mem_of_read_ne_zero {m : Memory} {a : Nat} (h : m.read a ≠ 0) : (a, m.read a) ∈ m := by
  induction m with
  | nil => exact absurd rfl h
  | cons x m ih =>
    by_cases heq : a = x.1
    · subst heq
      simp [Memory.read_cons]
    · rw [Memory.read_cons, if_neg heq] at h ⊢
      exact List.mem_cons_of_mem _ (ih h)

/-- In canonical form every entry is read at its address. -/
theorem Memory.read_of_mem {m : Memory} {x : Nat × Word} (hm : m.wf) (hx : x ∈ m) : m.read x.1 = x.2 := by
  obtain ⟨hrise, hne⟩ := hm
  induction m with
  | nil => simp at hx
  | cons y m ih =>
    obtain ⟨hy, hrise⟩ := List.pairwise_cons.1 hrise
    rw [Memory.read_cons]
    rcases List.mem_cons.1 hx with rfl | hx
    · rw [if_pos rfl]
    · rw [if_neg (hy x hx).ne', ih hx hrise fun z hz => hne z (List.mem_cons_of_mem _ hz)]

/-- In canonical form the entries are the addresses that do not read as 0, with their words. -/
theorem Memory.mem_iff_read {m : Memory} (hm : m.wf) (x : Nat × Word) :
    x ∈ m ↔ m.read x.1 = x.2 ∧ x.2 ≠ 0 := by
  refine ⟨fun hx => ⟨Memory.read_of_mem hm hx, hm.2 x hx⟩, ?_⟩
  rintro ⟨hread, hne⟩
  have hmem := Memory.mem_of_read_ne_zero (hread ▸ hne)
  rwa [hread] at hmem

theorem Memory.nodup_of_wf {m : Memory} (hm : m.wf) : m.Nodup :=
  hm.1.imp fun hlt heq => hlt.ne (congrArg Prod.fst heq)

/-- Settles O36: the same reads are the same entries, and rising addresses leave one order for them. -/
theorem canonicalMemoriesAreExtensional : Obligations.CanonicalMemoriesAreExtensional := by
  intro m n hm hn hread
  have hperm : m.Perm n := (List.perm_ext_iff_of_nodup (Memory.nodup_of_wf hm) (Memory.nodup_of_wf hn)).2 fun x => by
    rw [Memory.mem_iff_read hm, Memory.mem_iff_read hn, hread]
  exact hperm.eq_of_pairwise (fun x y _ _ hxy hyx => absurd hxy hyx.asymm) hm.1 hn.1

/-! ### The ALU -/

theorem wordHalf_pos (W : Nat) : 0 < wordHalf W := by
  rw [wordHalf]
  positivity

theorem two_pow_eq_wordHalf {W : Nat} (hW : 1 ≤ W) : (2 ^ W : Int) = 2 * wordHalf W := by
  obtain ⟨n, rfl⟩ := Nat.exists_eq_add_of_le' hW
  simp [wordHalf, pow_succ, mul_comm]

theorem wrapW_eq {W : Nat} (hW : 1 ≤ W) (v : Int) :
    wrapW W v = (v + wordHalf W) % (2 * wordHalf W) - wordHalf W := by
  rw [wrapW, ← two_pow_eq_wordHalf hW]
  push_cast
  rfl

/-- wrap of any integer is a word (R9). -/
theorem wrapW_inWordRange {W : Nat} (hW : 1 ≤ W) (v : Int) : inWordRange W (wrapW W v) := by
  have hpos := wordHalf_pos W
  have hlow := Int.emod_nonneg (v + wordHalf W) (b := 2 * wordHalf W) (by omega)
  have hhigh := Int.emod_lt_of_pos (v + wordHalf W) (b := 2 * wordHalf W) (by omega)
  rw [wrapW_eq hW]
  constructor <;> omega

/-- A word congruent to `v` is wrap of `v`: both have one residue in `[0, 2^W)` after the shift by `2^(W-1)`. -/
theorem eq_wrapW_of_dvd {W : Nat} {v w : Int} (hW : 1 ≤ W) (hw : inWordRange W w)
    (hdvd : (2 ^ W : Int) ∣ w - v) : w = wrapW W v := by
  rw [two_pow_eq_wordHalf hW] at hdvd
  have hmod : (w + wordHalf W) % (2 * wordHalf W) = (v + wordHalf W) % (2 * wordHalf W) :=
    ((Int.modEq_iff_dvd.2 hdvd).add_right _).symm
  rw [wrapW_eq hW, ← hmod, Int.emod_eq_of_lt (by omega) (by omega)]
  omega

/-- Settles O38: the range, the congruence of the shifted residue, and the uniqueness above. -/
theorem wrapIsTheCongruentWord : Obligations.WrapIsTheCongruentWord := by
  refine fun W v hW => ⟨wrapW_inWordRange hW v, ?_, fun w hw hdvd => eq_wrapW_of_dvd hW hw hdvd⟩
  rw [wrapW_eq hW, two_pow_eq_wordHalf hW, Int.emod_def]
  exact ⟨-((v + wordHalf W) / (2 * wordHalf W)), by ring⟩

/-- Settles O40: under wrap the word itself is the congruent word; under fault there is nothing to reject. -/
theorem inRangeResultsAreExact : Obligations.InRangeResultsAreExact := by
  intro c v hW hv
  cases hc : c.overflow with
  | wrap => rw [narrow_wrap hc, ← eq_wrapW_of_dvd hW hv (by simp)]
  | fault => exact narrow_fault_inRange hc hv

/-- Settles O39: both functions narrow a commutative operation. -/
theorem aluSumAndProduct : Obligations.AluSumAndProduct := by
  refine fun c x y => ⟨fun hc => ⟨narrow_wrap hc, narrow_wrap hc⟩, fun hc => ⟨narrow_fault_inRange hc,
    narrow_fault_overflow hc, narrow_fault_inRange hc, narrow_fault_overflow hc⟩, ?_, ?_⟩
  · rw [aluAdd, aluAdd, add_comm]
  · rw [aluMul, aluMul, mul_comm]

end Machine

end Sys2Proof
end

section
/-! PROOFS. The decode phase of a step: what a fetched instruction is, the errors of the header and of the destination
digit, and that a step always answers (40_execute_cycle.md R76 to R91). -/

namespace Sys2Proof

open Machine Claims

namespace Machine

/-! ### The fetched instruction -/

theorem step_of_fetchDecode {s : State} {i : Instr} (hrun : s.status = .running) (hfd : fetchDecode s = .ok i) :
    step s = exec i s := by
  rw [step_running hrun, hfd]

theorem fetchDecode_of_decode {s : State} {i : Instr} {rest : List Word}
    (hdec : decode s.config (fetchWindow s) = .ok (i, rest)) : fetchDecode s = .ok i := by
  rw [fetchDecode, hdec]

theorem rawOperands_length (i : Instr) : i.rawOperands.length = i.opcode.arity := by cases i <;> rfl

/-- The longest instruction has four words (R55). -/
theorem rawOperands_length_le (i : Instr) : i.rawOperands.length ≤ 3 := by
  rw [rawOperands_length]
  cases i.opcode <;> decide

/-- The window a fetched instruction was decoded from: its header, its operands and what follows. -/
theorem fetchDecode_window {s : State} {i : Instr} (hfd : fetchDecode s = .ok i) :
    ∃ rest, fetchWindow s = headerAt s :: (i.rawOperands ++ rest) ∧
      decode s.config (headerAt s :: (i.rawOperands ++ rest)) = .ok (i, rest) := by
  obtain ⟨rest, hdec⟩ := fetchDecode_ok hfd
  obtain ⟨h, _, hwin, -, rfl, -⟩ := decode_ok hdec
  have hget : (fetchWords s s.ptr 4)[0]? = some h := by rw [← fetchWindow, hwin]; rfl
  have hhead : h = headerAt s := by simpa using (fetchWords_get hget).2
  rw [hwin, hhead] at hdec
  exact ⟨rest, hhead ▸ hwin, hdec⟩

/-- R83: a fetched instruction lies whole inside memory. -/
theorem fetchDecode_bounds {s : State} {i : Instr} (hfd : fetchDecode s = .ok i) :
    0 ≤ s.ptr ∧ s.ptr + i.rawOperands.length < s.N := by
  obtain ⟨rest, hwin, -⟩ := fetchDecode_window hfd
  have hle := rawOperands_length_le i
  have hlen : i.rawOperands.length + 1 ≤ (fetchWords s s.ptr 4).length := by
    rw [← fetchWindow, hwin, List.length_cons, List.length_append]
    omega
  obtain ⟨h0, hN⟩ := (fetchWords_length (by omega) (by omega)).1 hlen
  exact ⟨h0, by omega⟩

/-- R85: operand `j + 1` is the word at `ptr + (j + 1)`. -/
theorem fetchDecode_operand {s : State} {i : Instr} {j : Nat} {p : Int} (hfd : fetchDecode s = .ok i)
    (hp : i.rawOperands[j]? = some p) : p = s.mem.read (s.ptr + (j + 1 : Nat)).toNat := by
  obtain ⟨rest, hwin, -⟩ := fetchDecode_window hfd
  have hget : (fetchWords s s.ptr 4)[j + 1]? = some p := by
    rw [← fetchWindow, hwin, List.getElem?_cons_succ,
      List.getElem?_append_left (List.getElem?_eq_some_iff.1 hp).1, hp]
  exact (fetchWords_get hget).2

theorem fetchDecode_field {s : State} {i : Instr} (hfd : fetchDecode s = .ok i) : fieldAt s = i.opcode.code := by
  obtain ⟨rest, -, hdec⟩ := fetchDecode_window hfd
  exact decode_field hdec

/-! ### Errors of the decode phase -/

/-- Settles O14: outside memory the window is empty. -/
theorem fetchOutsideMemoryFails : Obligations.FetchOutsideMemoryFails := by
  intro s hrun hout
  apply step_of_decode_error hrun
  simp [fetchWindow, fetchWords, fetchWord_error hout, decode]

/-- The truncating remainder takes the sign of the dividend (R9). -/
theorem tmod_hundred_of_neg {h : Int} (hneg : h < 0) : -99 ≤ h.tmod 100 ∧ h.tmod 100 ≤ 0 := by
  have hmod : h.tmod 100 = -(-h % 100) := by
    rw [← Int.tmod_eq_emod_of_nonneg (by omega), Int.neg_tmod, neg_neg]
  omega

/-- Settles O15: the sign is checked first, and the payload is the remainder of the truncating division by 100. -/
theorem negativeHeaderFails : Obligations.NegativeHeaderFails := by
  intro s hrun hp0 hpN hneg
  obtain ⟨hlow, hhigh⟩ := tmod_hundred_of_neg hneg
  have hdiv := Int.mul_tdiv_add_tmod (headerAt s) 100
  refine ⟨(headerAt s).tmod 100, ?_, hlow, hhigh, (headerAt s).tdiv 100, hdiv.symm, by omega⟩
  apply step_of_decode_error hrun
  rw [fetchWindow_cons ⟨hp0, hpN⟩]
  exact decode_of_header_error (if_pos hneg)

/-- Settles O16: the digits are checked in slot order, before the opcode. -/
theorem firstIllegalModeDigitFails : Obligations.FirstIllegalModeDigitFails :=
  fun _ _ hs h1 h3 hill hlegal => step_of_firstIllegalDigit hs h1 h3 hill hlegal

/-- The destination in slot `j` is operand `j`. -/
theorem destination_raw {i : Instr} {j : Nat} {d : Operand} (h : i.destination = some (j, d)) :
    1 ≤ j ∧ i.rawOperands[j - 1]? = some d.raw := by
  cases i <;> cases h <;> exact ⟨by decide, rfl⟩

/-- Under `as_position` nothing is left to check once the operands are taken (R84, D10). -/
theorem fetchDecode_asPosition {s : State} {j : Nat} (hs : Fetches s) (hdig : LegalDigits s)
    (hfield : LegalField s.config.profile (fieldAt s)) (hfit : s.ptr + arityOf (fieldAt s) ≤ (s.N : Int) - 1)
    (hpos : s.config.destImmediate = .asPosition) (hslot : DestSlotIs (fieldAt s) j) (himm : modeDigitAt s j = 1) :
    ∃ i d, fetchDecode s = .ok i ∧ i.destination = some (j, d) ∧ d.mode = .immediate := by
  obtain ⟨-, hp0, hpN, h0⟩ := hs
  obtain ⟨hd, i, rest, hhd, htake⟩ := takeOperands_of_fits h0 hp0 hdig hfield hfit
  have hallowed : i.destinationAllowed s.config = true := by simp [Instr.destinationAllowed, hpos]
  have hdec := decode_of_parts hhd htake (checkDestination_ok.2 hallowed)
  obtain ⟨h1, -, h3⟩ := decode_modeDigits hdec
  have hcode : fieldAt s = i.opcode.code := decode_field hdec
  rw [hcode] at hslot
  obtain ⟨d, hdest, hdigit⟩ := destination_of_destSlotIs hslot h1 h3
  rw [← fetchWindow_cons ⟨hp0, hpN⟩] at hdec
  exact ⟨i, d, fetchDecode_of_decode hdec, hdest, Mode.digitOf_eq_one.1 (hdigit.symm.trans himm)⟩

/-- Settles O19: the two policies of R84; the execute phase uses a destination's raw word alone. -/
theorem destinationDigitPolicy : Obligations.DestinationDigitPolicy := by
  intro s j hs hdig hfield hfit hslot himm
  refine ⟨fun hreject => step_of_immediateDestination hs hdig hfield hfit hreject hslot himm, fun hpos => ?_⟩
  obtain ⟨i, d, hfd, hdest, hmode⟩ := fetchDecode_asPosition hs hdig hfield hfit hpos hslot himm
  obtain ⟨h1, hraw⟩ := destination_raw hdest
  have hword := fetchDecode_operand hfd hraw
  rw [Nat.sub_add_cancel h1] at hword
  exact ⟨i, d, hfd, hdest, hmode, hword, step_of_fetchDecode hs.1 hfd, by cases i <;> rfl⟩

/-! ### The step answers -/

/-- Settles O20: the words at `ptr` that are the encoding of an instruction decode to it. -/
theorem stepRunsDecodedInstruction : Obligations.StepRunsDecodedInstruction := by
  refine ⟨fun s i rest hrun hdec => step_of_fetchDecode hrun (fetchDecode_of_decode hdec),
    fun s i hrun hwf h0 hN hwords => ?_⟩
  have hlen : (encode i).length ≤ 4 := Nat.succ_le_succ (rawOperands_length_le i)
  obtain ⟨rest, hwin⟩ := fetchWords_of_words (encode i) s.ptr 4 hlen h0 hN hwords
  have hdec : decode s.config (fetchWindow s) = .ok (i, rest) := by
    rw [fetchWindow, hwin, decodeOfEncodeIsIdentity s.config i rest hwf]
  exact step_of_fetchDecode hrun (fetchDecode_of_decode hdec)

theorem step_isNext (s : State) : ∃ t, step s = .next t := by
  by_cases hrun : s.status = .running
  · cases hfd : fetchDecode s with
    | ok i => exact step_of_fetchDecode hrun hfd ▸ exec_isNext i s
    | error e => exact ⟨s.fail e, by rw [step_running hrun, hfd]⟩
  · exact ⟨s, step_ended hrun⟩

/-- Settles O21: a decode error and the error of an execute phase are next states too. -/
theorem everyStepAnswersNextState : Obligations.EveryStepAnswersNextState := ⟨step_isNext, exec_isNext⟩

/-- Settles O26: a step request is the step with the status read off. -/
theorem stepRequestReturnsStatus : Obligations.StepRequestReturnsStatus := by
  refine ⟨fun s t _ hstep => ?_, fun s hend => ?_⟩
  · rw [stepRequest, hstep]
  · rw [stepRequest, step_ended hend]

end Machine

end Sys2Proof
end

section
/-! PROOFS. What a step changes and what it leaves unchanged: the effect of an execute phase on each component, and the
frames of the instructions and of the step (10_state.md R18 to R27, 60_exceptions.md R117). -/

namespace Sys2Proof

open Machine Claims

namespace Machine

/-! ### The effect of an execute phase on each component -/

section
variable {i : Instr} {s t : State}

theorem ExecEffect.fixedParts (h : ExecEffect i s t) : SameFixedParts s t := by
  cases h <;> exact ⟨rfl, rfl, rfl⟩

/-- Memory is written at the destination of an instruction that has one, inside `[0, N)`, or not at all. -/
theorem ExecEffect.mem_cases (h : ExecEffect i s t) :
    t.mem = s.mem ∨ ∃ j d r, i.destination = some (j, d) ∧ s.inBounds d.raw ∧
      t.mem = s.mem.write d.raw.toNat r := by
  cases h with
  | full a b d r f hi _ _ hd =>
    obtain ⟨rfl, -⟩ | ⟨rfl, -⟩ | ⟨rfl, -⟩ | ⟨rfl, -⟩ := hi <;> exact .inr ⟨3, d, r, rfl, hd, rfl⟩
  | input d x2 x3 v hi _ hd =>
    subst hi
    exact .inr ⟨1, d, v, rfl, hd, rfl⟩
  | fail | out | taken | notTaken | hlt => exact .inl rfl

/-- The word at an address changes only if the destination names the address. -/
theorem ExecEffect.read_cases (h : ExecEffect i s t) (adr : Nat) :
    t.mem.read adr = s.mem.read adr ∨ ∃ j d, i.destination = some (j, d) ∧ destAddress d = adr := by
  obtain hmem | ⟨j, d, r, hdest, ⟨h0, -⟩, hmem⟩ := h.mem_cases
  · exact .inl (by rw [hmem])
  · by_cases hadr : adr = d.raw.toNat
    · exact .inr ⟨j, d, hdest, by rw [destAddress, hadr, Int.toNat_of_nonneg h0]⟩
    · exact .inl (by rw [hmem, Memory.read_write_other s.mem r hadr])

theorem ExecEffect.outLog_cases (h : ExecEffect i s t) :
    t.outLog = s.outLog ∨ ∃ a x2 x3, i = .out a x2 x3 ∧ readable s a ∧ t = (s.emit (operandValue s a)).advance 1 := by
  cases h with
  | out a x2 x3 hi ha => exact .inr ⟨a, x2, x3, hi, ha, rfl⟩
  | fail | full | input | taken | notTaken | hlt => exact .inl rfl

theorem ExecEffect.status_cases (h : ExecEffect i s t) :
    t.status = s.status ∨ (∃ e, t = s.fail e) ∨ (t.status = .halted ∧ ∃ x1 x2 x3, i = .hlt x1 x2 x3) := by
  cases h with
  | fail e => exact .inr (.inl ⟨e, rfl⟩)
  | hlt x1 x2 x3 hi => exact .inr (.inr ⟨rfl, x1, x2, x3, hi⟩)
  | full | input | out | taken | notTaken => exact .inl rfl

/-- Only `hlt` sets a status that no error sets. -/
theorem ExecEffect.sameStatusOrFailed (h : ExecEffect i s t) (hi : ∀ x1 x2 x3, i ≠ .hlt x1 x2 x3) :
    SameStatusOrFailed s t := by
  obtain hst | ⟨e, rfl⟩ | ⟨-, x1, x2, x3, rfl⟩ := h.status_cases
  · exact .inl hst
  · exact .inr ⟨e, rfl⟩
  · exact absurd rfl (hi x1 x2 x3)

/-! ### Execute phases that complete -/

/-- An execute phase that does not fail committed the state it computed. -/
theorem commit_completes {r : Except Error State} (h : commit s r = .next t) (hnf : NotFailed t) : r = .ok t := by
  obtain hok | ⟨e, -, rfl⟩ := commit_cases h
  · exact hok
  · exact absurd rfl (hnf e)

theorem full_completes {f : Config → Int → Int → Except Error Word} {a b d : Operand}
    (h : commit s (fullExecute f a b d s) = .next t) (hnf : NotFailed t) :
    ∃ r, f s.config (operandValue s a) (operandValue s b) = .ok r ∧ s.inBounds d.raw ∧
      t = { s with mem := s.mem.write d.raw.toNat r, ptr := s.ptr + 4 } := by
  obtain ⟨r, -, -, hd, hf, rfl⟩ := fullExecute_cases (commit_completes h hnf)
  exact ⟨r, hf, hd, by rw [add_assoc]; rfl⟩

theorem jump_completes {test : Int → Bool} {c g : Operand}
    (h : commit s (jumpExecute test c g s) = .next t) (hnf : NotFailed t) :
    t = s.advance 2 ∨ test (operandValue s c) = true ∧ t = s.jumpTo (operandValue s g) := by
  obtain ⟨-, ⟨htest, -, ht⟩ | ⟨-, -, ht⟩⟩ := jumpExecute_cases (commit_completes h hnf)
  · exact .inr ⟨htest, ht⟩
  · exact .inl ht

/-- Of the instructions that complete, only a jump can leave `ptr` elsewhere than past its words (R21, R22). -/
theorem ExecEffect.ptr_cases (h : ExecEffect i s t) :
    (∃ e, t = s.fail e) ∨ t.ptr = s.ptr + 1 + i.rawOperands.length ∨
      ∃ c g x3, i = .jt c g x3 ∨ i = .jf c g x3 := by
  cases h with
  | fail e => exact .inl ⟨e, rfl⟩
  | full a b d r f hi =>
    obtain ⟨rfl, -⟩ | ⟨rfl, -⟩ | ⟨rfl, -⟩ | ⟨rfl, -⟩ := hi <;> exact .inr (.inl rfl)
  | taken c g x3 hi | notTaken c g x3 hi => exact .inr (.inr ⟨c, g, x3, hi⟩)
  | input d x2 x3 v hi | out a x2 x3 hi | hlt x1 x2 x3 hi =>
    subst hi
    exact .inr (.inl rfl)

theorem exec_ptr (h : exec i s = .next t) (hnf : NotFailed t) :
    t.ptr = s.ptr + 1 + i.rawOperands.length ∨
      ∃ q g x3, (i = .jt q g x3 ∧ operandValue s q ≠ 0 ∨ i = .jf q g x3 ∧ operandValue s q = 0) ∧
        t.ptr = operandValue s g := by
  obtain ⟨e, rfl⟩ | hptr | ⟨q, g, x3, rfl | rfl⟩ := (exec_effect h).ptr_cases
  · exact absurd rfl (hnf e)
  · exact .inl hptr
  · obtain rfl | ⟨htest, rfl⟩ := jump_completes h hnf
    · exact .inl rfl
    · exact .inr ⟨q, g, x3, .inl ⟨rfl, testNonzero_eq_true.1 htest⟩, rfl⟩
  · obtain rfl | ⟨htest, rfl⟩ := jump_completes h hnf
    · exact .inl rfl
    · exact .inr ⟨q, g, x3, .inr ⟨rfl, testZero_eq_true.1 htest⟩, rfl⟩

end

/-! ### Frames of the instructions -/

/-- Settles O51: each of the five names its destination `d`, and none is an out or a hlt. -/
theorem storingInstructionsFrame : Obligations.StoringInstructionsFrame := by
  intro s t a b d x2 x3 i hi h
  have heff := exec_effect h
  obtain ⟨j, hdest⟩ : ∃ j, i.destination = some (j, d) := by
    obtain rfl | rfl | rfl | rfl | rfl := hi <;> exact ⟨_, rfl⟩
  refine ⟨fun adr hadr => ?_, ?_, heff.fixedParts, heff.sameStatusOrFailed ?_⟩
  · obtain hread | ⟨j', d', hdest', hadr'⟩ := heff.read_cases adr
    · exact hread
    · obtain ⟨-, rfl⟩ : j = j' ∧ d = d' := by simpa [hdest] using hdest'
      exact absurd hadr'.symm hadr
  · obtain hlog | ⟨_, _, _, rfl, -⟩ := heff.outLog_cases
    · exact hlog
    · cases hdest
  · rintro _ _ _ rfl
    cases hdest

/-- An instruction without a destination leaves memory as it is. -/
theorem ExecEffect.mem_of_no_destination {i : Instr} {s t : State} (h : ExecEffect i s t)
    (hi : i.destination = none) : t.mem = s.mem := by
  obtain hmem | ⟨j, d, r, hdest, -⟩ := h.mem_cases
  · exact hmem
  · rw [hi] at hdest
    cases hdest

theorem jump_frame {i : Instr} {s t : State} {c g : Operand} {x3 : Mode} (hi : i = .jt c g x3 ∨ i = .jf c g x3)
    (h : exec i s = .next t) :
    t.mem = s.mem ∧ t.outLog = s.outLog ∧ SameFixedParts s t ∧ SameStatusOrFailed s t := by
  have heff := exec_effect h
  refine ⟨heff.mem_of_no_destination ?_, ?_, heff.fixedParts, heff.sameStatusOrFailed ?_⟩
  · obtain rfl | rfl := hi <;> rfl
  · obtain hlog | ⟨_, _, _, rfl, -⟩ := heff.outLog_cases
    · exact hlog
    · simp at hi
  · rintro _ _ _ rfl
    simp at hi

theorem out_frame {s t : State} {a : Operand} {x2 x3 : Mode} (h : exec (.out a x2 x3) s = .next t) :
    t.mem = s.mem ∧ SameFixedParts s t ∧ SameStatusOrFailed s t ∧
      (readable s a → t.outLog = s.outLog ++ [operandValue s a] ∧ t.status = s.status) ∧
      (¬ readable s a → t.outLog = s.outLog) := by
  have heff := exec_effect h
  refine ⟨heff.mem_of_no_destination rfl, heff.fixedParts, heff.sameStatusOrFailed (by simp), fun ha => ?_,
    fun ha => ?_⟩
  · cases h.symm.trans (execOut_ok ha)
    exact ⟨rfl, rfl⟩
  · cases h.symm.trans (execOut_error ha)
    rfl

/-- Settles O52: none of the four has a destination. -/
theorem nonStoringInstructionsFrame : Obligations.NonStoringInstructionsFrame := by
  refine ⟨fun s t c g x3 i hi h => ?_, fun s t a x2 x3 h => ?_, fun s t x1 x2 x3 h => ?_⟩
  · obtain ⟨hmem, hlog, hfixed, hstatus⟩ := jump_frame hi h
    exact ⟨hmem, fun adr => by rw [hmem], hlog, hfixed, hstatus⟩
  · obtain ⟨hmem, hfixed, hstatus, hlog⟩ := out_frame h
    exact ⟨hmem, fun adr => by rw [hmem], hfixed, hstatus, hlog⟩
  · cases h
    exact ⟨rfl, fun _ => rfl, rfl, ⟨rfl, rfl, rfl⟩, rfl⟩

/-! ### Frames of the step -/

/-- Settles O10: the operands are the words decoded, the words decoded are those at `ptr`, and the execute phase moves
`ptr` past them. -/
theorem instructionLengthByOpcode : Obligations.InstructionLengthByOpcode := by
  refine ⟨fun c h ws rest i hdec => ?_, fun s i hfd => ?_, fun s t i hrun hfd hstep hnf => ?_⟩
  · obtain ⟨_, ops, heq, -, hops, -⟩ := decode_ok hdec
    cases heq
    rw [decode_field hdec, arityOf_code, ← rawOperands_length]
    refine ⟨rfl, hops, ?_⟩
    rw [hops, List.length_cons, List.length_append]
    omega
  · obtain ⟨h0, hN⟩ := fetchDecode_bounds hfd
    rw [fetchDecode_field hfd, arityOf_code]
    exact ⟨h0, hN, (rawOperands_length i).symm, fun j p hp => fetchDecode_operand hfd hp⟩
  · rw [step_of_fetchDecode hrun hfd] at hstep
    exact exec_ptr hstep hnf

/-- Settles O24: of the effects only the error's is a failed state, and it changes the status alone. -/
theorem failingStepChangesOnlyStatus : Obligations.FailingStepChangesOnlyStatus := by
  intro s t e hrun hstep hfailed
  have hfail (e' : Error) (ht : t = s.fail e') : t = { s with status := .failed e } := by
    subst ht
    rw [State.fail_status] at hfailed
    rw [State.fail, hfailed]
  obtain ⟨hend, -⟩ | ⟨-, e', -, ht⟩ | ⟨-, i, -, hexec⟩ := step_cases hstep
  · exact absurd hrun hend
  · exact hfail e' ht
  · obtain hst | ⟨e', ht⟩ | ⟨hst, -⟩ := (exec_effect hexec).status_cases
    · simp [hst, hrun] at hfailed
    · exact hfail e' ht
    · simp [hst] at hfailed

/-- Settles O25: hlt halts, every other effect keeps the status or fails, and nothing steps after the end. -/
theorem statusTransitions : Obligations.StatusTransitions := by
  intro s t hstep
  refine ⟨fun hrun => ⟨⟨fun hhalt => ?_, ?_⟩, ?_⟩, fun hend => ?_⟩
  · obtain ⟨hend, -⟩ | ⟨-, e, -, rfl⟩ | ⟨-, i, hfd, hexec⟩ := step_cases hstep
    · exact absurd hrun hend
    · simp at hhalt
    · obtain hst | ⟨e, rfl⟩ | ⟨-, x1, x2, x3, rfl⟩ := (exec_effect hexec).status_cases
      · simp [hst, hrun] at hhalt
      · simp at hhalt
      · exact ⟨x1, x2, x3, hfd⟩
  · rintro ⟨x1, x2, x3, hfd⟩
    rw [step_of_fetchDecode hrun hfd] at hstep
    cases hstep
    rfl
  · cases t.status with
    | running => exact .inl rfl
    | halted => exact .inr (.inl rfl)
    | failed e => exact .inr (.inr ⟨e, rfl⟩)
  · rw [step_ended hend] at hstep
    cases hstep
    rfl

/-- Settles O27: neither a decode error nor an effect touches them. -/
theorem lengthLatchAndConfigurationFixed : Obligations.LengthLatchAndConfigurationFixed := by
  intro s t hstep
  obtain ⟨-, rfl⟩ | ⟨-, e, -, rfl⟩ | ⟨-, i, -, hexec⟩ := step_cases hstep
  · exact ⟨rfl, rfl, rfl⟩
  · exact ⟨rfl, rfl, rfl⟩
  · exact (exec_effect hexec).fixedParts

/-- Settles O28: an out with a readable operand appends its value; no other effect touches the log. -/
theorem outputLogOnlyAppends : Obligations.OutputLogOnlyAppends := by
  intro s t hstep
  by_cases hout : ∃ a x2 x3, s.status = .running ∧ fetchDecode s = .ok (.out a x2 x3) ∧ readable s a
  · obtain ⟨a, x2, x3, hrun, hfd, ha⟩ := hout
    rw [step_of_fetchDecode hrun hfd] at hstep
    obtain ⟨-, -, -, hlog, -⟩ := out_frame hstep
    exact .inr ⟨a, x2, x3, hrun, hfd, ha, (hlog ha).1⟩
  · refine .inl ⟨?_, hout⟩
    obtain ⟨-, rfl⟩ | ⟨-, e, -, rfl⟩ | ⟨hrun, i, hfd, hexec⟩ := step_cases hstep
    · rfl
    · rfl
    · obtain hlog | ⟨a, x2, x3, rfl, ha, -⟩ := (exec_effect hexec).outLog_cases
      · exact hlog
      · exact absurd ⟨a, x2, x3, hrun, hfd, ha⟩ hout

/-- Settles O32: only an execute phase writes memory, and only at its instruction's destination. -/
theorem memoryChangesOnlyAtDestination : Obligations.MemoryChangesOnlyAtDestination := by
  intro s t adr hstep hne
  obtain ⟨-, rfl⟩ | ⟨-, e, -, rfl⟩ | ⟨-, i, hfd, hexec⟩ := step_cases hstep
  · exact absurd rfl hne
  · exact absurd rfl hne
  · obtain ⟨j, d, hdest, hadr⟩ := ((exec_effect hexec).read_cases adr).resolve_left hne
    exact ⟨i, j, d, hfd, hdest, hadr⟩

end Machine

end Sys2Proof
end

section
/-! PROOFS. Launch (70_reset_and_hazards.md R128, R129), and the invariant: every launch establishes it and every step
keeps it (10_state.md R15 to R27, R133). -/

namespace Sys2Proof

open Machine Claims

namespace Machine

/-! ### Launch -/

section
variable {c : Config} {image : List Word} {input : Option Word}

theorem inputInRange_iff : inputInRange c input = true ↔ ∀ v ∈ input, inWordRange c.W v := by
  cases input <;> simp [inputInRange]

theorem launch_of_admitted (hc : c.wf) (hlen : image.length ≤ c.maxWords) (himg : ∀ w ∈ image, inWordRange c.W w)
    (hin : ∀ v ∈ input, inWordRange c.W v) : launch c image input = .next (launchState c image input) := by
  rw [launch, if_neg (not_not.2 hc), if_neg hlen.not_gt, if_neg (not_not.2 himg), if_pos (inputInRange_iff.2 hin)]

/-- A launch that answers had its preconditions (R129), and answers the launched state. -/
theorem launch_cases {t : State} (h : launch c image input = .next t) :
    (c.wf ∧ image.length ≤ c.maxWords ∧ (∀ w ∈ image, inWordRange c.W w) ∧ ∀ v ∈ input, inWordRange c.W v) ∧
      t = launchState c image input := by
  unfold launch at h
  split_ifs at h with hc hlen himg hin
  cases h
  exact ⟨⟨hc, not_lt.1 hlen, himg, inputInRange_iff.1 hin⟩, rfl⟩

theorem read_launchState (a : Nat) : (launchState c image input).mem.read a = image.getD a 0 := by
  simp [launchState, Memory.read_ofWords]

end

/-- Settles O4: the tests of the launch, in their order, are the preconditions. -/
theorem launchAdmittedExactlyInRange : Obligations.LaunchAdmittedExactlyInRange := by
  refine fun c image input => ⟨?_, ?_⟩
  · rintro ⟨t, h⟩
    exact (launch_cases h).1
  · rintro ⟨hc, hlen, himg, hin⟩
    exact ⟨_, launch_of_admitted hc hlen himg hin⟩

/-- Settles O3: the launched state's fields, and the image with one word replaced is admitted too. -/
theorem launchEstablishesResetValues : Obligations.LaunchEstablishesResetValues := by
  intro c image input hc hlen himg hin
  refine ⟨_, launch_of_admitted hc hlen himg hin, rfl, fun a w hw => ?_, rfl, rfl, rfl, rfl, rfl, fun a v ha hv => ?_⟩
  · rw [read_launchState, List.getD_eq_getElem?_getD, hw, Option.getD_some]
  · have himg' : ∀ w ∈ overwriteWord image a v, inWordRange c.W w := fun w hw => by
      obtain hw | rfl := List.mem_or_eq_of_mem_set hw
      · exact himg w hw
      · exact hv
    have hlen' : (overwriteWord image a v).length = image.length := List.length_set
    refine ⟨_, launch_of_admitted hc (hlen'.trans_le hlen) himg' hin, hlen', ?_, fun b hb => ?_⟩
    · rw [read_launchState, overwriteWord, List.getD_eq_getElem?_getD, List.getElem?_set_self ha, Option.getD_some]
    · rw [read_launchState, read_launchState, overwriteWord, List.getD_eq_getElem?_getD, List.getElem?_set_ne hb.symm,
        List.getD_eq_getElem?_getD]

/-- Settles O5: an entry of the launched memory is a word of the image at an address of the image. -/
theorem launchEstablishesInvariant : Obligations.LaunchEstablishesInvariant := by
  intro c image input t h
  obtain ⟨⟨hc, hlen, himg, hin⟩, rfl⟩ := launch_cases h
  have hpos : 0 < wordHalf c.W := wordHalf_pos c.W
  exact {
    config := hc
    length := hlen
    memWf := Memory.ofWords_wf image 0
    memBelow := fun x hx => by
      obtain ⟨-, hlt, -⟩ := Memory.mem_ofWords hx
      rwa [zero_add] at hlt
    memRange := fun x hx => by
      obtain ⟨-, -, hmem, -⟩ := Memory.mem_ofWords hx
      exact himg x.2 hmem
    latch := hin
    log := by simp [launchState]
    ptrRange := ⟨neg_nonpos.2 hpos.le, hpos.le⟩
    haltedNonempty := by simp [launchState]
    minimalSilent := fun _ => rfl }

/-- Settles O1: the fields as written. -/
theorem resetStartsRunningAtAddressZero : Obligations.ResetStartsRunningAtAddressZero :=
  ⟨rfl, rfl, rfl, rfl, rfl, rfl, rfl⟩

theorem launch_reset : launch .specValues [] none = .next State.reset :=
  launch_of_admitted (by decide) (by decide) (by simp) (by simp)

/-- Settles O2: the reset is a launch (log 3). -/
theorem resetSatisfiesInvariant : Obligations.ResetSatisfiesInvariant :=
  launchEstablishesInvariant .specValues [] none State.reset launch_reset

/-! ### Words in range -/

theorem two_le_wordHalf {W : Nat} (hW : 2 ≤ W) : 2 ≤ wordHalf W := by
  have hpow : 2 ^ 1 ≤ 2 ^ (W - 1) := Nat.pow_le_pow_right (by decide) (by omega)
  rw [wordHalf]
  exact_mod_cast hpow

/-- The two words of a comparison are in the range of every admitted width. -/
theorem ite_one_zero_inWordRange {W : Nat} (hW : 2 ≤ W) (p : Prop) [Decidable p] :
    inWordRange W (if p then 1 else 0) := by
  have hhalf := two_le_wordHalf hW
  split <;> constructor <;> omega

/-- What the overflow policy lets through is a word (R92). -/
theorem narrow_inWordRange {c : Config} {v r : Int} (hW : 1 ≤ c.W) (h : narrow c v = .ok r) : inWordRange c.W r := by
  cases hc : c.overflow with
  | wrap =>
    cases (narrow_wrap hc).symm.trans h
    exact wrapW_inWordRange hW v
  | fault =>
    by_cases hv : inWordRange c.W v
    · cases (narrow_fault_inRange hc hv).symm.trans h
      exact hv
    · cases (narrow_fault_overflow hc hv).symm.trans h

namespace State.Inv

section
variable {s : State}

theorem two_le_W (h : s.Inv) : 2 ≤ s.config.W := le_trans (by decide) h.config.1

theorem one_le_W (h : s.Inv) : 1 ≤ s.config.W := le_trans (by decide) h.two_le_W

theorem N_le_wordHalf (h : s.Inv) : (s.N : Int) ≤ wordHalf s.config.W := by
  rw [wordHalf]
  exact_mod_cast h.length.trans h.config.2.2

/-- R17: every word of memory is in range, the unlisted ones too. -/
theorem read_inWordRange (h : s.Inv) (a : Nat) : inWordRange s.config.W (s.mem.read a) := by
  by_cases hz : s.mem.read a = 0
  · have hpos := wordHalf_pos s.config.W
    rw [hz]
    constructor <;> omega
  · exact h.memRange _ (Memory.mem_of_read_ne_zero hz)

theorem operandValue_inWordRange (h : s.Inv) {o : Operand} (ho : inWordRange s.config.W o.raw) :
    inWordRange s.config.W (operandValue s o) := by
  unfold operandValue
  split
  · exact ho
  · exact h.read_inWordRange _

/-- R63: the operands of a fetched instruction are words of memory. -/
theorem operands_inWordRange (h : s.Inv) {i : Instr} (hfd : fetchDecode s = .ok i) {p : Int}
    (hp : p ∈ i.rawOperands) : inWordRange s.config.W p := by
  obtain ⟨j, hj⟩ := List.getElem?_of_mem hp
  rw [fetchDecode_operand hfd hj]
  exact h.read_inWordRange _

/-- Past a fetched instruction `ptr` is at most `N`. -/
theorem ptr_past (h : s.Inv) {i : Instr} (hfd : fetchDecode s = .ok i) :
    -wordHalf s.config.W ≤ s.ptr + 1 + i.rawOperands.length ∧
      s.ptr + 1 + i.rawOperands.length ≤ wordHalf s.config.W := by
  obtain ⟨h0, hN⟩ := fetchDecode_bounds hfd
  have hhalf := h.N_le_wordHalf
  have hpos := wordHalf_pos s.config.W
  constructor <;> omega

/-! ### The updates keep the invariant -/

theorem fail (h : s.Inv) (e : Error) : (s.fail e).Inv :=
  { h with haltedNonempty := by simp }

theorem setPtr (h : s.Inv) {p : Int} (hp : -wordHalf s.config.W ≤ p ∧ p ≤ wordHalf s.config.W) :
    State.Inv { s with ptr := p } :=
  { h with ptrRange := hp }

theorem write (h : s.Inv) {a v : Int} (hb : s.inBounds a) (hv : inWordRange s.config.W v) :
    State.Inv { s with mem := s.mem.write a.toNat v } :=
  { h with
    memWf := Memory.write_wf _ _ h.memWf
    memBelow := fun x hx => by
      obtain rfl | ⟨hx, -⟩ := Memory.mem_write hx
      · have hlt : a.toNat < s.N := by omega
        exact hlt
      · exact h.memBelow x hx
    memRange := fun x hx => by
      obtain rfl | ⟨hx, -⟩ := Memory.mem_write hx
      · exact hv
      · exact h.memRange x hx }

theorem emit (h : s.Inv) {v : Int} (hv : inWordRange s.config.W v) (hfull : s.config.profile ≠ .minimal) :
    (s.emit v).Inv :=
  { h with
    log := fun w hw => by
      obtain hw | hw := List.mem_append.1 hw
      · exact h.log w hw
      · exact List.mem_singleton.1 hw ▸ hv
    minimalSilent := fun hmin => absurd hmin hfull }

theorem halt (h : s.Inv) (hN : 1 ≤ s.N) : s.halt.Inv :=
  { h with haltedNonempty := fun _ => hN }

end

end State.Inv

/-! ### The step keeps the invariant -/

theorem fetchDecode_minimal {s : State} {i : Instr} (hmin : s.config.profile = .minimal)
    (hfd : fetchDecode s = .ok i) : i.opcode = .add ∨ i.opcode = .mul ∨ i.opcode = .hlt := by
  obtain ⟨rest, hdec⟩ := fetchDecode_ok hfd
  exact (minimalDecodeIsPartOfFull s.config _ rest i hmin hdec).1

/-- The result of each of the four Full instructions is a word. -/
theorem full_result_inWordRange {i : Instr} {c : Config} {f : Config → Int → Int → Except Error Word}
    {a b d : Operand} {x y r : Int}
    (hi : i = .add a b d ∧ f = aluAdd ∨ i = .mul a b d ∧ f = aluMul ∨ i = .lt a b d ∧ f = aluLt ∨
      i = .eq a b d ∧ f = aluEq)
    (hW : 2 ≤ c.W) (hf : f c x y = .ok r) : inWordRange c.W r := by
  obtain ⟨-, rfl⟩ | ⟨-, rfl⟩ | ⟨-, rfl⟩ | ⟨-, rfl⟩ := hi
  · exact narrow_inWordRange (by omega) hf
  · exact narrow_inWordRange (by omega) hf
  · cases hf
    exact ite_one_zero_inWordRange hW _
  · cases hf
    exact ite_one_zero_inWordRange hW _

/-- The execute phase of a fetched instruction keeps the invariant: what it writes or emits is a word, and `ptr` is
past the instruction or a word. -/
theorem exec_keeps_inv {s t : State} {i : Instr} (h : s.Inv) (hfd : fetchDecode s = .ok i)
    (hexec : exec i s = .next t) : t.Inv := by
  have hpast := h.ptr_past hfd
  have hword {p : Int} (hp : p ∈ i.rawOperands) := h.operands_inWordRange hfd hp
  cases exec_effect hexec with
  | fail e => exact h.fail e
  | full a b d r f hi _ _ hd hf =>
    have hr := full_result_inWordRange hi h.two_le_W hf
    obtain ⟨rfl, -⟩ | ⟨rfl, -⟩ | ⟨rfl, -⟩ | ⟨rfl, -⟩ := hi <;> exact (h.write hd hr).setPtr hpast
  | input d x2 x3 v hi hl hd =>
    subst hi
    exact (h.write hd (h.latch v hl)).setPtr hpast
  | out a x2 x3 hi _ =>
    subst hi
    have hfull : s.config.profile ≠ .minimal := fun hmin => by
      simpa [Instr.opcode] using fetchDecode_minimal hmin hfd
    exact (h.emit (h.operandValue_inWordRange (hword (by simp [Instr.rawOperands]))) hfull).setPtr hpast
  | taken c g x3 hi _ _ =>
    have hg : g.raw ∈ i.rawOperands := by obtain rfl | rfl := hi <;> simp [Instr.rawOperands]
    obtain ⟨hlow, hhigh⟩ := h.operandValue_inWordRange (hword hg)
    exact h.setPtr ⟨hlow, by omega⟩
  | notTaken c g x3 hi _ =>
    obtain rfl | rfl := hi <;> exact h.setPtr hpast
  | hlt x1 x2 x3 hi =>
    subst hi
    obtain ⟨h0, hN⟩ := fetchDecode_bounds hfd
    exact (h.halt (by omega)).setPtr hpast

/-- Settles O22: nothing, an error, or the execute phase of a fetched instruction. -/
theorem stepKeepsInvariant : Obligations.StepKeepsInvariant := by
  intro s t h hstep
  obtain ⟨-, rfl⟩ | ⟨-, e, -, rfl⟩ | ⟨-, i, hfd, hexec⟩ := step_cases hstep
  · exact h
  · exact h.fail e
  · exact exec_keeps_inv h hfd hexec

/-- Settles O23: launched, then kept by every step of the run. -/
theorem runStatesSatisfyInvariant : Obligations.RunStatesSatisfyInvariant := by
  intro c image input s t hlaunch hreach
  induction hreach with
  | start =>
    have hinv := launchEstablishesInvariant c image input s hlaunch
    obtain ⟨-, rfl⟩ := launch_cases hlaunch
    exact ⟨hinv, rfl, rfl, rfl⟩
  | step _ hstep ih =>
    obtain ⟨hinv, hN, hlatch, hconfig⟩ := ih
    obtain ⟨hN', hlatch', hconfig'⟩ := lengthLatchAndConfigurationFixed _ _ hstep.2
    exact ⟨stepKeepsInvariant _ _ hinv hstep.2, hN'.trans hN, hlatch'.trans hlatch, hconfig'.trans hconfig⟩

/-- Settles O58: a halted run has the word at address 0 that its result reads. -/
theorem runResultByStatus : Obligations.RunResultByStatus := by
  refine fun s h => ⟨fun hst => ?_, fun hst => ?_, fun e hst => ?_⟩
  · rw [State.result, hst]
  · have hN := h.haltedNonempty hst
    have hb : s.inBounds 0 := ⟨le_rfl, by omega⟩
    simp only [State.result, hst, memRead_ok hb]
    rfl
  · rw [State.result, hst]

end Machine

end Sys2Proof
end

section
/-! PROOFS. in, hlt, the Full instructions that complete, the idioms, and a placed instruction (42_io.md R97, 45_halt.md
R106, 41_arithmetic.md R95, 30_encoding.md R75). -/

namespace Sys2Proof

open Machine Claims

namespace Machine

/-! ### in and hlt -/

section
variable {s : State} {d : Operand}

/-- D12: the latch is checked before the destination's bounds. -/
theorem execInput_missing (hl : s.inLatch = none) : execInput d s = failsWith s .missingInput := by
  simp only [execInput, readLatch, hl, bind, Except.bind]
  exact commit_error s _

theorem execInput_error {v : Word} (hl : s.inLatch = some v) (hd : ¬ s.inBounds d.raw) :
    execInput d s = failsWith s (.outOfBounds d.raw) := by
  simp only [execInput, readLatch, hl, bind, Except.bind, destAddress, memWrite_error v hd]
  exact commit_error s _

theorem execInput_ok {v : Word} (hl : s.inLatch = some v) (hd : s.inBounds d.raw) :
    execInput d s = .next { s with mem := s.mem.write d.raw.toNat v, ptr := s.ptr + 2 } := by
  simp only [execInput, readLatch, hl, bind, Except.bind, destAddress, memWrite_ok v hd, State.advance_one_eq]
  rfl

end

/-- Settles O43: the latch, then the bounds, then the write; the encoding and the decode exceptions are those of every
opcode. -/
theorem inputFollowsItsRule : Obligations.InputFollowsItsRule :=
  ⟨fun d x2 x3 => encode_eq_digits (.input d x2 x3), decodeExceptions 3, fun _ _ _ _ =>
    ⟨execInput_missing, fun _ => execInput_error, fun _ => execInput_ok⟩⟩

/-- Settles O49: the status is Halted and `ptr` is past the one word. -/
theorem haltFollowsItsRule : Obligations.HaltFollowsItsRule := by
  refine ⟨fun x1 x2 x3 => encode_eq_digits (.hlt x1 x2 x3), decodeExceptions 99, fun s x1 x2 x3 => ?_⟩
  calc exec (.hlt x1 x2 x3) s
    _ = .next (s.halt.advance 0) := rfl
    _ = .next { s with status := .halted, ptr := s.ptr + 1 } := by simp [State.advance, State.halt]

/-! ### Full instructions that complete -/

/-- All any of the four does when it completes. -/
theorem fullInstr_completes {s t : State} {a b d : Operand} {i : Instr}
    (hi : i = .add a b d ∨ i = .mul a b d ∨ i = .lt a b d ∨ i = .eq a b d) (h : exec i s = .next t)
    (hnf : NotFailed t) :
    ∃ r, s.inBounds d.raw ∧ t = { s with mem := s.mem.write d.raw.toNat r, ptr := s.ptr + 4 } := by
  obtain ⟨f, hf⟩ : ∃ f, exec i s = commit s (fullExecute f a b d s) := by
    obtain rfl | rfl | rfl | rfl := hi <;> exact ⟨_, rfl⟩
  obtain ⟨r, -, hd, ht⟩ := full_completes (hf ▸ h) hnf
  exact ⟨r, hd, ht⟩

/-- Settles O35: the address written is the next header's, and the next fetch reads the memory written. -/
theorem storeToNextHeaderIsFetched : Obligations.StoreToNextHeaderIsFetched := by
  intro s t a b d i hi _ hexec hnf hdest
  obtain ⟨r, hd, rfl⟩ := fullInstr_completes hi hexec hnf
  have hraw : d.raw = s.ptr + 4 := hdest
  have hread : (s.mem.write d.raw.toNat r).read (s.ptr + 4).toNat = r := by rw [hraw, Memory.read_write_same]
  exact ⟨r, _, hdest.symm, rfl, (fetchWindow_cons (hraw ▸ hd)).trans (congrArg (· :: _) hread)⟩

/-- Settles O53: the sum is computed from the state before the write. -/
theorem sourcesAreReadBeforeTheWrite : Obligations.SourcesAreReadBeforeTheWrite := by
  intro s t a b d hrun hfd hstep hnf _
  rw [step_of_fetchDecode hrun hfd] at hstep
  obtain ⟨r, hr, -, rfl⟩ := full_completes hstep hnf
  exact ⟨r, hr, Memory.read_write_same _ _ _, rfl⟩

/-! ### The idioms of R75 -/

section
variable {s : State}

theorem execJt_taken {c g : Operand} {x3 : Mode} (hc : readable s c) (hk : operandValue s c ≠ 0) (hg : readable s g) :
    exec (.jt c g x3) s = .next { s with ptr := operandValue s g } := by
  obtain ⟨-, -, taken, -⟩ := jumpIfTrueFollowsItsRule.2.2 s c g x3
  exact taken hc hk hg

theorem execJf_taken {c g : Operand} {x3 : Mode} (hc : readable s c) (hk : operandValue s c = 0) (hg : readable s g) :
    exec (.jf c g x3) s = .next { s with ptr := operandValue s g } := by
  obtain ⟨-, -, taken, -⟩ := jumpIfFalseFollowsItsRule.2.2 s c g x3
  exact taken hc hk hg

theorem execAdd_exact {a b d : Operand} {r : Int} (h : s.Inv) (ha : readable s a) (hb : readable s b)
    (hd : s.inBounds d.raw) (hsum : operandValue s a + operandValue s b = r) (hr : inWordRange s.config.W r) :
    exec (.add a b d) s = .next { s with mem := s.mem.write d.raw.toNat r, ptr := s.ptr + 4 } :=
  commit_fullExecute_ok ha hb (by rw [aluAdd, hsum, inRangeResultsAreExact _ _ h.one_le_W hr]) hd

theorem execMul_exact {a b d : Operand} {r : Int} (h : s.Inv) (ha : readable s a) (hb : readable s b)
    (hd : s.inBounds d.raw) (hprod : operandValue s a * operandValue s b = r) (hr : inWordRange s.config.W r) :
    exec (.mul a b d) s = .next { s with mem := s.mem.write d.raw.toNat r, ptr := s.ptr + 4 } :=
  commit_fullExecute_ok ha hb (by rw [aluMul, hprod, inRangeResultsAreExact _ _ h.one_le_W hr]) hd

end

theorem readable_imm (s : State) (n : Int) : readable s (imm n) := .inl rfl

theorem readable_pos {s : State} {n : Int} (h : s.inBounds n) : readable s (pos n) := .inr h

/-- The most negative word is the only one whose negation is no word (R6). -/
theorem neg_inWordRange {W : Nat} {v : Int} (hv : inWordRange W v) (hne : v ≠ -wordHalf W) : inWordRange W (-v) := by
  obtain ⟨hlow, hhigh⟩ := hv
  constructor <;> omega

/-- Settles O59: the jumps by their rules, the sums and the product exact because they are words. -/
theorem idiomsDoWhatTheyName : Obligations.IdiomsDoWhatTheyName := by
  intro s x3 T v a b h
  refine ⟨?_, ?_, ?_, fun ha => ?_, fun hb hv => ?_, fun ha hb => ?_, fun ha hb hne => ?_⟩
  · exact execJt_taken (readable_imm s 1) one_ne_zero (readable_imm s T)
  · exact execJf_taken (readable_imm s 0) rfl (readable_imm s T)
  · exact commit_jumpExecute_notTaken (readable_imm s 0) rfl fun _ => readable_imm s 0
  · exact execJt_taken (readable_imm s 1) one_ne_zero (readable_pos ha)
  · exact execAdd_exact h (readable_imm s v) (readable_imm s 0) hb (add_zero v) hv
  · exact execAdd_exact h (readable_pos ha) (readable_imm s 0) hb (add_zero _) (h.read_inWordRange a.toNat)
  · exact execMul_exact h (readable_pos ha) (readable_imm s (-1)) hb (mul_neg_one _)
      (neg_inWordRange (h.read_inWordRange a.toNat) hne)

/-! ### A placed instruction -/

/-- Settles O50: placing the words keeps what the fetch does not need, and the next fetch reads them. -/
theorem placedTableWordRunsNext : Obligations.PlacedTableWordRunsNext := by
  intro s nbits w i hc htable
  obtain ⟨rest, hdec⟩ := decodeTableWord_some htable
  rw [← hc] at hdec
  rw [withFetchWord_eq]
  refine ⟨step_placeInstruction s rfl hdec, placeInstruction_inLatch s _, placeInstruction_outLog s _,
    placeInstruction_config s _, fun a ha => ?_⟩
  have hlen : (tableWords nbits w).length = 4 := rfl
  rw [placeInstruction_mem, read_placeWords, if_neg (by omega)]

end Machine

end Sys2Proof
end

section
/-! PROOFS. What a step does not read: the output log always, the input latch in profile minimal, and the profile where
profile minimal does not fail. One change of the parts that no Full instruction, jump or hlt reads serves all three
(00_scope.md R3, 10_state.md R26, R27, R32). -/

namespace Sys2Proof

open Machine Claims

namespace Machine

/-- The state with another configuration, input latch and output log. -/
def State.replaceParts (s : State) (c : Config) (latch : Option Word) (log : List Word) : State :=
  { s with config := c, inLatch := latch, outLog := log }

/-- The parameters that the execute phases read are the same (R92, R100). -/
def SameExecution (c c' : Config) : Prop :=
  c'.W = c.W ∧ c'.overflow = c.overflow ∧ c'.jumpTargetEager = c.jumpTargetEager

section
variable {s t : State} {c : Config} {latch : Option Word} {log : List Word}

/-! ### The fetch -/

theorem fetchWords_replaceParts (a : Int) (k : Nat) :
    fetchWords (s.replaceParts c latch log) a k = fetchWords s a k := by
  induction k generalizing a with
  | zero => rfl
  | succ k ih =>
    by_cases hb : s.inBounds a
    · simp only [fetchWords, ih, fetchWord_ok hb, fetchWord_ok (s := s.replaceParts c latch log) hb]
      rfl
    · simp only [fetchWords, fetchWord_error hb, fetchWord_error (s := s.replaceParts c latch log) hb]

theorem fetchWindow_replaceParts : fetchWindow (s.replaceParts c latch log) = fetchWindow s :=
  fetchWords_replaceParts s.ptr 4

theorem fetchDecode_replaceParts : fetchDecode (s.replaceParts s.config latch log) = fetchDecode s := by
  rw [fetchDecode, fetchDecode, fetchWindow_replaceParts]
  rfl

/-! ### The execute phase -/

theorem commit_replaceParts {r : Except Error State} (h : commit s r = .next t) :
    commit (s.replaceParts c latch log) ((·.replaceParts c latch log) <$> r) =
      .next (t.replaceParts c latch log) := by
  cases r <;> cases h <;> rfl

theorem resolve_replaceParts (o : Operand) : resolve (s.replaceParts c latch log) o = resolve s o := rfl

theorem memWrite_replaceParts (a v : Int) :
    memWrite (s.replaceParts c latch log) a v = (·.replaceParts c latch log) <$> memWrite s a v := by
  by_cases hb : s.inBounds a
  · rw [memWrite_ok v hb, memWrite_ok (s := s.replaceParts c latch log) v hb]
    rfl
  · rw [memWrite_error v hb, memWrite_error (s := s.replaceParts c latch log) v hb]
    rfl

theorem fullExecute_replaceParts {f : Config → Int → Int → Except Error Word} (a b d : Operand)
    (hf : ∀ x y, f c x y = f s.config x y) :
    fullExecute f a b d (s.replaceParts c latch log) =
      (·.replaceParts c latch log) <$> fullExecute f a b d s := by
  have hconfig : (s.replaceParts c latch log).config = c := rfl
  simp only [fullExecute, resolve_replaceParts, memWrite_replaceParts, hconfig, hf, map_bind, bind_map_left, map_pure]
  rfl

theorem commit_fullExecute_replaceParts {f : Config → Int → Int → Except Error Word} {a b d : Operand}
    (hf : ∀ x y, f c x y = f s.config x y) (h : commit s (fullExecute f a b d s) = .next t) :
    commit (s.replaceParts c latch log) (fullExecute f a b d (s.replaceParts c latch log)) =
      .next (t.replaceParts c latch log) := by
  rw [fullExecute_replaceParts a b d hf, commit_replaceParts h]

theorem jumpExecute_replaceParts {test : Int → Bool} (q g : Operand)
    (heager : c.jumpTargetEager = s.config.jumpTargetEager) :
    jumpExecute test q g (s.replaceParts c latch log) =
      (·.replaceParts c latch log) <$> jumpExecute test q g s := by
  have hconfig : (s.replaceParts c latch log).config = c := rfl
  simp only [jumpExecute, resolve_replaceParts, hconfig, heager, map_bind]
  refine bind_congr fun x => ?_
  split
  · simp only [map_bind, map_pure, apply_ite fun u : State => u.replaceParts c latch log]
    rfl
  · rfl

theorem commit_jumpExecute_replaceParts {test : Int → Bool} {q g : Operand}
    (heager : c.jumpTargetEager = s.config.jumpTargetEager) (h : commit s (jumpExecute test q g s) = .next t) :
    commit (s.replaceParts c latch log) (jumpExecute test q g (s.replaceParts c latch log)) =
      .next (t.replaceParts c latch log) := by
  rw [jumpExecute_replaceParts q g heager, commit_replaceParts h]

theorem narrow_sameExecution (hc : SameExecution s.config c) (v : Int) : narrow c v = narrow s.config v := by
  obtain ⟨hW, hover, -⟩ := hc
  rw [narrow, narrow, hW, hover]

/-- With other parts the execute phase does the same and keeps them: `in` alone reads the latch, an out that completes
alone touches the log. -/
theorem exec_replaceParts {i : Instr} (hc : SameExecution s.config c)
    (hin : i.opcode = .input → latch = s.inLatch) (hout : ∀ a x2 x3, i = .out a x2 x3 → ¬ readable s a)
    (h : exec i s = .next t) :
    exec i (s.replaceParts c latch log) = .next (t.replaceParts c latch log) := by
  have hnarrow := narrow_sameExecution hc
  obtain ⟨-, -, heager⟩ := hc
  cases i with
  | add a b d => exact commit_fullExecute_replaceParts (fun x y => hnarrow (x + y)) h
  | mul a b d => exact commit_fullExecute_replaceParts (fun x y => hnarrow (x * y)) h
  | lt a b d | eq a b d => exact commit_fullExecute_replaceParts (fun _ _ => rfl) h
  | jt q g x3 | jf q g x3 => exact commit_jumpExecute_replaceParts heager h
  | input d x2 x3 =>
    obtain rfl := hin rfl
    cases hl : s.inLatch with
    | none =>
      cases h.symm.trans (execInput_missing hl)
      exact execInput_missing (s := s.replaceParts c none log) rfl
    | some v =>
      by_cases hd : s.inBounds d.raw
      · cases h.symm.trans (execInput_ok hl hd)
        exact execInput_ok (s := s.replaceParts c (some v) log) rfl hd
      · cases h.symm.trans (execInput_error hl hd)
        exact execInput_error (s := s.replaceParts c (some v) log) rfl hd
  | out a x2 x3 =>
    have ha := hout a x2 x3 rfl
    cases h.symm.trans (execOut_error ha)
    exact execOut_error (s := s.replaceParts c latch log) ha
  | hlt x1 x2 x3 =>
    cases h
    rfl

/-! ### The step -/

theorem step_replaceParts_of_fetchDecode {i : Instr} (hrun : s.status = .running)
    (hfd : fetchDecode (s.replaceParts c latch log) = .ok i) :
    step (s.replaceParts c latch log) = exec i (s.replaceParts c latch log) :=
  step_of_fetchDecode (s := s.replaceParts c latch log) hrun hfd

/-- The same for a step, where the configuration is kept. -/
theorem step_replaceParts (hin : ∀ i, fetchDecode s = .ok i → i.opcode = .input → latch = s.inLatch)
    (hout : ¬ ∃ a x2 x3, s.status = .running ∧ fetchDecode s = .ok (.out a x2 x3) ∧ readable s a)
    (hstep : step s = .next t) :
    step (s.replaceParts s.config latch log) = .next (t.replaceParts s.config latch log) := by
  obtain ⟨hend, rfl⟩ | ⟨hrun, e, hfd, rfl⟩ | ⟨hrun, i, hfd, hexec⟩ := step_cases hstep
  · exact step_ended hend
  · rw [step_running (s := s.replaceParts s.config latch log) hrun, fetchDecode_replaceParts, hfd]
    rfl
  · rw [step_replaceParts_of_fetchDecode hrun (fetchDecode_replaceParts.trans hfd)]
    refine exec_replaceParts ⟨rfl, rfl, rfl⟩ (hin i hfd) (fun a x2 x3 hi ha => hout ?_) hexec
    exact ⟨a, x2, x3, hrun, hi ▸ hfd, ha⟩

end

/-- Settles O29: an out with a readable operand appends its value to either log; every other step appends nothing. -/
theorem outputLogIsNeverRead : Obligations.OutputLogIsNeverRead := by
  intro s t log hstep
  obtain ⟨-, hlatch, hconfig⟩ := lengthLatchAndConfigurationFixed s t hstep
  obtain ⟨hlog, hout⟩ | ⟨a, x2, x3, hrun, hfd, ha, -⟩ := outputLogOnlyAppends s t hstep
  · refine ⟨[], by rw [hlog, List.append_nil], ?_⟩
    have hother := step_replaceParts (latch := s.inLatch) (log := log) (fun _ _ _ => rfl) hout hstep
    refine Eq.trans hother (congrArg _ ?_)
    rw [← hconfig, ← hlatch, List.append_nil]
    rfl
  · rw [step_of_fetchDecode hrun hfd] at hstep
    cases hstep.symm.trans (execOut_ok ha)
    refine ⟨[operandValue s a], rfl, ?_⟩
    have hfd' := (fetchDecode_replaceParts (latch := s.inLatch) (log := log)).trans hfd
    exact (step_replaceParts_of_fetchDecode hrun hfd').trans
      (execOut_ok (s := s.replaceParts s.config s.inLatch log) ha)

/-- Settles O30: profile minimal decodes no in and no out. -/
theorem minimalProfileHasNoIo : Obligations.MinimalProfileHasNoIo := by
  intro s t v hmin hstep
  have hin (i : Instr) (hfd : fetchDecode s = .ok i) (hi : i.opcode = .input) : v = s.inLatch := by
    simpa [hi] using fetchDecode_minimal hmin hfd
  obtain ⟨-, -, hconfig⟩ := lengthLatchAndConfigurationFixed s t hstep
  obtain ⟨hlog, hout⟩ | ⟨a, x2, x3, -, hfd, -⟩ := outputLogOnlyAppends s t hstep
  · refine ⟨hlog, ?_⟩
    have hother := step_replaceParts (log := s.outLog) hin hout hstep
    refine Eq.trans hother (congrArg _ ?_)
    rw [← hconfig, ← hlog]
    rfl
  · simpa [Instr.opcode] using fetchDecode_minimal hmin hfd

/-- What profile minimal fetches, profile full fetches. -/
theorem fetchDecode_full {s : State} {i : Instr} (hmin : s.config.profile = .minimal) (hfd : fetchDecode s = .ok i) :
    fetchDecode (s.replaceParts { s.config with profile := .full } s.inLatch s.outLog) = .ok i := by
  obtain ⟨rest, hdec⟩ := fetchDecode_ok hfd
  obtain ⟨-, -, hfull⟩ := minimalDecodeIsPartOfFull s.config _ rest i hmin hdec
  apply fetchDecode_of_decode (rest := rest)
  rw [fetchWindow_replaceParts]
  exact hfull

/-- Settles O31: the same instruction is fetched, and its execute phase does not read the profile. -/
theorem minimalStepIsFullStep : Obligations.MinimalStepIsFullStep := by
  intro s t hmin hnf hstep
  obtain ⟨-, hlatch, hconfig⟩ := lengthLatchAndConfigurationFixed s t hstep
  obtain ⟨hend, rfl⟩ | ⟨-, e, -, rfl⟩ | ⟨hrun, i, hfd, hexec⟩ := step_cases hstep
  · exact step_ended hend
  · exact absurd rfl (hnf e)
  · have hop := fetchDecode_minimal hmin hfd
    have hlog := (minimalProfileHasNoIo s t none hmin hstep).1
    have hother := exec_replaceParts (c := { s.config with profile := .full }) (log := s.outLog) ⟨rfl, rfl, rfl⟩
      (fun _ => rfl) (by rintro a x2 x3 rfl; simp [Instr.opcode] at hop) hexec
    rw [← step_replaceParts_of_fetchDecode hrun (fetchDecode_full hmin hfd)] at hother
    refine Eq.trans hother (congrArg _ ?_)
    rw [← hconfig, ← hlatch, ← hlog]
    rfl

end Machine

end Sys2Proof
end

section
/-! PROOFS. Taken jumps and the run loop (43_jumps.md R99 to R102, 40_execute_cycle.md R90, 60_exceptions.md R127). -/

namespace Sys2Proof

open Machine Claims

namespace Machine

/-! ### The run loop -/

section
variable {s t : State}

theorem runFor_succ (hrun : s.status = .running) (hstep : step s = .next t) (k : Nat) :
    runFor (k + 1) s = runFor k t := by
  simp only [runFor, hrun, hstep]

theorem runFor_ended (hend : s.status ≠ .running) (k : Nat) : runFor k s = .next s := by
  cases k with
  | zero => rfl
  | succ k =>
    cases hst : s.status with
    | running => exact absurd hst hend
    | halted | failed e => simp only [runFor, hst]

/-- A run from the next state is a run from this one. -/
theorem Reachable.of_step {u : State} (hst : Steps s t) (hreach : Reachable t u) : Reachable s u := by
  induction hreach with
  | start => exact .step .start hst
  | step _ hlast ih => exact .step ih hlast

end

/-- Settles O56: by induction on the bound; a terminal state ends the loop at any bound. -/
theorem runLoopStopsAtFirstTerminalState : Obligations.RunLoopStopsAtFirstTerminalState := by
  intro k m s t hrunFor hend
  induction k generalizing s with
  | zero =>
    cases hrunFor
    exact runFor_ended hend _
  | succ k ih =>
    by_cases hrun : s.status = .running
    · obtain ⟨u, hstep⟩ := step_isNext s
      rw [runFor_succ hrun hstep] at hrunFor
      rw [Nat.succ_add, runFor_succ hrun hstep]
      exact ih u hrunFor
    · rw [runFor_ended hrun] at hrunFor ⊢
      exact hrunFor

/-- The path that starts at `s` and goes on as `path` does. -/
def consPath (s : State) (path : Nat → State) : Nat → State
  | 0 => s
  | j + 1 => path j

theorem consPath_steps {s : State} {path : Nat → State} {k : Nat} (hfirst : Steps s (path 0))
    (hpath : ∀ j, j < k → Steps (path j) (path (j + 1))) :
    ∀ j, j < k + 1 → Steps (consPath s path j) (consPath s path (j + 1))
  | 0, _ => hfirst
  | j + 1, hj => hpath j (Nat.lt_of_succ_lt_succ hj)

/-- Settles O57: by induction on the bound, the first step put before the path from the next state. -/
theorem runLoopFollowsSteps : Obligations.RunLoopFollowsSteps := by
  refine ⟨fun k s t hrun hstep => runFor_succ hrun hstep k, fun k => ?_⟩
  induction k with
  | zero => exact fun s => ⟨s, rfl, .start, fun _ => ⟨fun _ => s, rfl, rfl, fun j hj => absurd hj j.not_lt_zero⟩⟩
  | succ k ih =>
    intro s
    by_cases hrun : s.status = .running
    · obtain ⟨u, hstep⟩ := step_isNext s
      obtain ⟨t, hrunFor, hreach, hpath⟩ := ih u
      refine ⟨t, (runFor_succ hrun hstep k).trans hrunFor, hreach.of_step ⟨hrun, hstep⟩, fun ht => ?_⟩
      obtain ⟨path, rfl, hlast, hsteps⟩ := hpath ht
      exact ⟨consPath s path, rfl, hlast, consPath_steps ⟨hrun, hstep⟩ hsteps⟩
    · exact ⟨s, runFor_ended hrun _, .start, fun ht => absurd ht hrun⟩

/-! ### Taken jumps -/

theorem exec_taken {s : State} {c g : Operand} {x3 : Mode} {i : Instr}
    (hi : i = .jt c g x3 ∧ operandValue s c ≠ 0 ∨ i = .jf c g x3 ∧ operandValue s c = 0) (hc : readable s c)
    (hg : readable s g) : exec i s = .next { s with ptr := operandValue s g } := by
  obtain ⟨rfl, hk⟩ | ⟨rfl, hk⟩ := hi
  · exact execJt_taken hc hk hg
  · exact execJf_taken hc hk hg

/-- Settles O54: the jump completes with any target word, and the fetch there is out of bounds. -/
theorem jumpOutsideMemoryFailsAtNextFetch : Obligations.JumpOutsideMemoryFailsAtNextFetch :=
  fun _ _ _ _ _ hrun hc hg hi hout =>
    ⟨_, exec_taken hi hc hg, hrun, rfl, fetchOutsideMemoryFails _ hrun hout⟩

/-- Settles O55: the jump sets `ptr` to what it is, and the loop repeats that step. -/
theorem takenJumpToItselfHangs : Obligations.TakenJumpToItselfHangs := by
  intro s c g x3 i hrun hfd hi hc hg hself
  have hstep : step s = .next s := by
    rw [step_of_fetchDecode hrun hfd, exec_taken hi hc hg, hself]
  refine ⟨hstep, fun k => ?_⟩
  induction k with
  | zero => rfl
  | succ k ih => rw [runFor_succ hrun hstep, ih]

end Machine

end Sys2Proof
end
